-- ==== Sys2Proof/Word.lean ====
section
/-!
DEFINITION. The word types of GCORR and nothing else: the command and read-back word, an LFSR register,
a sample and the accumulator (spec/00_scope.md R7, R11).
-/

namespace Sys2Proof

/-- A command word, a result word or a read-back word (R90, R99, R100). -/
abbrev Word := BitVec 32

/-- An LFSR register of `W = 10` cells (R7, R21). -/
abbrev Reg10 := BitVec 10

/-- A sample-buffer element, `SAMPLE_W = 16` bits, two's complement (R7, R30). -/
abbrev Sample := BitVec 16

/-- The accumulator and the score, `ACC_W = 27` bits, two's complement (R7, R31). -/
abbrev AccWord := BitVec 27

end Sys2Proof
end

