-- ==== Sys2Proof/Config.lean ====
section
/-!
DEFINITION. The configuration bundle `Cfg` (spec/00_scope.md R7), its validity (R8), the reference and the
test configuration (R9, R10), and the configuration a block is built with, whose OPEN parameters are constants
without a body.
-/

namespace Sys2Proof

/-- A cell index, 1-based from the front, `1 .. 10` (R11, R21, R22). The bound is carried by the type, so that
`cell` is never asked for a cell that does not exist. -/
abbrev CellIdx := { i : Nat // 1 ≤ i ∧ i ≤ 10 }

/-- The cell index with 0-based position `i`. -/
def CellIdx.ofFin (i : Fin 10) : CellIdx := ⟨i.val + 1, by omega⟩

/-- One entry of the tap table: a pair of cell indices of register B (R28, conflict C1). -/
structure TapPair where
  t1 : CellIdx
  t2 : CellIdx
deriving DecidableEq, Repr

/-- The configuration bundle, fixed when the block is built (R7). `W = 10`, `SAMPLE_W = 16` and `ACC_W = 27` are
fixed by the spec and are the widths of the word types. -/
structure Cfg where
  /-- `N`, the number of identities. -/
  n : Nat
  /-- `L`, the code length and the sample-buffer length. -/
  l : Nat
  /-- `A_TAP`, register A's feedback tap cell. -/
  aTap : CellIdx
  /-- `B_TAPS`, register B's five feedback tap cells. -/
  bTaps : Vector CellIdx 5
  /-- `TAPS`, one pair per identity. -/
  taps : List TapPair
  /-- `F`, the oversampling factor. -/
  f : Nat
  /-- `B`, the effective bit depth: used only to derive the thresholds (R155). -/
  b : Nat
  /-- `THR_HI`. -/
  thrHi : Int
  /-- `THR_LO`. -/
  thrLo : Int
deriving DecidableEq, Repr

/-- `CfgOK` (R8): a premise of every rule, not something a command or a reset tests (R213). The ranges of the cell
indices and the five entries of `B_TAPS` are in the types. -/
structure Cfg.OK (c : Cfg) : Prop where
  n_pos : 1 ≤ c.n
  n_le : c.n ≤ 256
  l_pos : 1 ≤ c.l
  l_le : c.l ≤ 1024
  taps_length : c.taps.length = c.n
  f_pos : 1 ≤ c.f
  thrHi_pos : 1 ≤ c.thrHi
  thrLo_neg : c.thrLo ≤ -1
  thrHi_fits : c.thrHi * c.f < 2 ^ 26
  thrLo_fits : -c.thrLo * c.f < 2 ^ 26

/-! ## The two configurations the spec names for its vectors -/

/-- A pair of cell indices written as numbers. -/
def TapPair.of (a b : Nat) (ha : 1 ≤ a ∧ a ≤ 10 := by decide) (hb : 1 ≤ b ∧ b ≤ 10 := by decide) : TapPair :=
  ⟨⟨a, ha⟩, ⟨b, hb⟩⟩

/-- The tap table of `REF` (R9). -/
def Cfg.refTaps : List TapPair :=
  [.of 2 6, .of 3 7, .of 4 8, .of 5 9, .of 1 9, .of 2 10] ++
  [.of 1 8, .of 2 9, .of 3 10, .of 2 3, .of 3 4, .of 5 6] ++
  [.of 6 7, .of 7 8, .of 8 9, .of 9 10, .of 1 4, .of 2 5] ++
  [.of 3 6, .of 4 7, .of 5 8, .of 6 9, .of 1 3, .of 4 6]

/-- The reference configuration `REF` (R9): not normative, used for vectors only. -/
def Cfg.ref : Cfg where
  n := 24
  l := 1023
  aTap := ⟨3, by decide⟩
  bTaps := #v[⟨2, by decide⟩, ⟨3, by decide⟩, ⟨6, by decide⟩, ⟨8, by decide⟩, ⟨9, by decide⟩]
  taps := Cfg.refTaps
  f := 10
  b := 12
  thrHi := 63
  thrLo := -65

/-- The test configuration `T8` (R10). -/
def Cfg.t8 : Cfg := { Cfg.ref with n := 2, l := 8, taps := [.of 2 6, .of 3 7] }

/-! ## The configuration a block is built with

DESIGN CHOICE, safe (log entry 1): the spec leaves `N`, `L`, `A_TAP`, `B_TAPS` and `TAPS` OPEN (R7, D5), so
each is a constant without a body: nothing proved of the reset state can lean on a value of one. The constants
count from 0 and the configuration counts from 1, which is what R8 asks of each. -/

/-- `N - 1`. -/
opaque Config.lastIdentity : Fin 256
/-- `L - 1`. -/
opaque Config.lastPosition : Fin 1024
/-- `A_TAP - 1`. -/
opaque Config.aTap : Fin 10
/-- `B_TAPS`, each less 1. -/
opaque Config.bTaps : Vector (Fin 10) 5
/-- `TAPS`, each index less 1. -/
opaque Config.tapsAt : Nat → Fin 10 × Fin 10

/-- `TAPS[id]` of the built block. -/
def Config.tapPair (id : Nat) : TapPair :=
  ⟨CellIdx.ofFin (Config.tapsAt id).1, CellIdx.ofFin (Config.tapsAt id).2⟩

/-- The configuration of the built block. `F`, `B`, `THR_HI` and `THR_LO` have the document's values
(R7, R155; log entry 2). -/
def Config.built : Cfg where
  n := Config.lastIdentity.val + 1
  l := Config.lastPosition.val + 1
  aTap := CellIdx.ofFin Config.aTap
  bTaps := Config.bTaps.map CellIdx.ofFin
  taps := Config.tapPair 0 :: (List.range Config.lastIdentity.val).map fun id => Config.tapPair (id + 1)
  f := 10
  b := 12
  thrHi := 63
  thrLo := -65

end Sys2Proof
end

