-- ==== Sys2Proof/Syntax.lean ====
section
/-!
DEFINITION. The GCORR command set, version 1 (spec/30_encoding.md R93): one constructor per row of
spec/opcode_table.json, with the operand of its format (R91, R92).
-/

namespace Sys2Proof

/-- The twelve commands. `id` is an unsigned identity, `r` a register number, `n` an unsigned count and `v` a
signed sample in two's complement (R92). -/
inductive Instr where
  | nop
  | rdreg (r : BitVec 8)
  | srst
  | ginit (id : BitVec 8)
  | gstep
  | ggen (n : BitVec 16)
  | gmat (id : BitVec 8)
  | sclr
  | spush (v : Sample)
  | rot
  | corr (id : BitVec 8)
  | decode (id : BitVec 8)
deriving DecidableEq, Repr

end Sys2Proof
end

