-- ==== Sys2Proof/WellFormed.lean ====
section
/-!
DEFINITION. Which commands the encoding admits (spec/30_encoding.md R94, R95). Operand widths are in the types;
what is left to check is that RDREG names a register that exists. `id < N` is not a matter of form: it is
compared by the command's own rule (R92, R94).
-/

namespace Sys2Proof

/-- The register numbers that are not reserved (R95 (c)). -/
def legalRegNum (r : BitVec 8) : Bool :=
  r ≤ 0x08#8 || (0x10#8 ≤ r && r ≤ 0x14#8) || (0x20#8 ≤ r && r ≤ 0x27#8)

/-- A well-formed command. -/
def Instr.wf : Instr → Bool
  | .nop => true
  | .rdreg r => legalRegNum r
  | .srst => true
  | .ginit _ => true
  | .gstep => true
  | .ggen _ => true
  | .gmat _ => true
  | .sclr => true
  | .spush _ => true
  | .rot => true
  | .corr _ => true
  | .decode _ => true

end Sys2Proof
end

