-- ==== Sys2Proof/Decode.lean ====
section
/-!
DEFINITION. Decoding a command word (spec/30_encoding.md R90 to R96), total and rejecting by name, and after it
the encoder, written from the same formats. The read-back registers of spec/10_state.md R35 get their names here.
-/

namespace Sys2Proof

/-- The registers RDREG reads (R35). -/
inductive ReadReg where
  | status
  | fcmd
  | id
  | ra
  | rb
  | slen
  | phase
  | acc
  | score
  | cfgN
  | cfgL
  | cfgF
  | cfgThrHi
  | cfgThrLo
  | cvalid (w : Fin 8)
deriving DecidableEq, Repr

/-- The register a number selects, `none` for a reserved number (R35). -/
def readReg? (r : BitVec 8) : Option ReadReg :=
  match r.toNat with
  | 0x00 => some .status
  | 0x01 => some .fcmd
  | 0x02 => some .id
  | 0x03 => some .ra
  | 0x04 => some .rb
  | 0x05 => some .slen
  | 0x06 => some .phase
  | 0x07 => some .acc
  | 0x08 => some .score
  | 0x10 => some .cfgN
  | 0x11 => some .cfgL
  | 0x12 => some .cfgF
  | 0x13 => some .cfgThrHi
  | 0x14 => some .cfgThrLo
  | 0x20 => some (.cvalid 0)
  | 0x21 => some (.cvalid 1)
  | 0x22 => some (.cvalid 2)
  | 0x23 => some (.cvalid 3)
  | 0x24 => some (.cvalid 4)
  | 0x25 => some (.cvalid 5)
  | 0x26 => some (.cvalid 6)
  | 0x27 => some (.cvalid 7)
  | _ => none

/-- Why a word is no command (R95 (a), (b), (c)). -/
inductive Illegal where
  | opcode
  | reservedBits
  | reservedRegister
deriving DecidableEq, Repr

/-- What decoding answers: one of the twelve commands, or Illegal with its reason (R94). -/
inductive Decoded where
  | command (i : Instr)
  | illegal (why : Illegal)
deriving DecidableEq, Repr

/-- The command of a decoding, if it is one. -/
def Decoded.instr? : Decoded → Option Instr
  | .command i => some i
  | .illegal _ => none

/-- `op = cmd[31:24]` (R90). -/
def opField (w : Word) : BitVec 8 := w.extractLsb' 24 8

/-- Format Z: `cmd[23:0]` must be zero (R91). -/
def formatZ (w : Word) (i : Instr) : Decoded :=
  if w.extractLsb' 0 24 = 0 then .command i else .illegal .reservedBits

/-- Formats I and R: `cmd[23:8]` must be zero, the operand is `cmd[7:0]` (R91). -/
def formatI (w : Word) (i : BitVec 8 → Instr) : Decoded :=
  if w.extractLsb' 8 16 = 0 then .command (i (w.extractLsb' 0 8)) else .illegal .reservedBits

/-- Formats C and S: `cmd[23:16]` must be zero, the operand is `cmd[15:0]` (R91). -/
def formatC (w : Word) (i : BitVec 16 → Instr) : Decoded :=
  if w.extractLsb' 16 8 = 0 then .command (i (w.extractLsb' 0 16)) else .illegal .reservedBits

/-- RDREG: format R, and the register number must not be reserved (R94). -/
def formatRdreg (w : Word) : Decoded :=
  if w.extractLsb' 8 16 = 0 then
    match readReg? (w.extractLsb' 0 8) with
    | some _ => .command (.rdreg (w.extractLsb' 0 8))
    | none => .illegal .reservedRegister
  else .illegal .reservedBits

/-- Decoding, total, from the word alone (R94, R96). -/
def decode (w : Word) : Decoded :=
  match (opField w).toNat with
  | 0x00 => formatZ w .nop
  | 0x01 => formatRdreg w
  | 0x02 => formatZ w .srst
  | 0x10 => formatI w .ginit
  | 0x11 => formatZ w .gstep
  | 0x12 => formatC w .ggen
  | 0x13 => formatI w .gmat
  | 0x20 => formatZ w .sclr
  | 0x21 => formatC w .spush
  | 0x22 => formatZ w .rot
  | 0x30 => formatI w .corr
  | 0x31 => formatI w .decode
  | _ => .illegal .opcode

/-! ## Encoding -/

/-- The opcode of a command (R93). -/
def Instr.opcode : Instr → BitVec 8
  | .nop => 0x00
  | .rdreg _ => 0x01
  | .srst => 0x02
  | .ginit _ => 0x10
  | .gstep => 0x11
  | .ggen _ => 0x12
  | .gmat _ => 0x13
  | .sclr => 0x20
  | .spush _ => 0x21
  | .rot => 0x22
  | .corr _ => 0x30
  | .decode _ => 0x31

/-- `cmd[23:0]`: the operand in its format's place, zeros elsewhere (R91). -/
def Instr.payload : Instr → BitVec 24
  | .nop => 0
  | .rdreg r => 0#16 ++ r
  | .srst => 0
  | .ginit id => 0#16 ++ id
  | .gstep => 0
  | .ggen n => 0#8 ++ n
  | .gmat id => 0#16 ++ id
  | .sclr => 0
  | .spush v => 0#8 ++ v
  | .rot => 0
  | .corr id => 0#16 ++ id
  | .decode id => 0#16 ++ id

/-- The word of a command. -/
def encode (i : Instr) : Word := i.opcode ++ i.payload

/-- The command the decoder reads from a word of `nbits` bits numbered as spec/opcode_table.json numbers them; the
bits above `nbits` are zero. A command is one word (R90), so there is no byte to lay out (R62). -/
def decodeTableWord (nbits w : Nat) : Option Instr :=
  (decode (BitVec.ofNat 32 (w % 2 ^ nbits))).instr?

end Sys2Proof
end

