-- ==== Sys2Proof/Machine/Memory.lean ====
section
/-!
DEFINITION. A memory space of GCORR as a list of (index, element) pairs in one canonical form (spec/20_memory.md
R60): indices strictly rising. An index that is not listed holds no value (spec/10_state.md R42: "a model must give
the element no value"), so no entry can equal what an unlisted index reads as.
-/

namespace Sys2Proof.Machine

/-- A space whose elements have the type `α`, as (index, element) pairs. -/
abbrev Memory (α : Type) := List (Nat × α)

namespace Memory

variable {α : Type}

/-- The canonical form: indices strictly rising. -/
abbrev wf (m : Memory α) : Prop := (m.map Prod.fst).Pairwise (· < ·)

/-- `MemRead(S, i)` (R12): the element at index `a`, `none` where nothing has been written. -/
def read : Memory α → Nat → Option α
  | [], _ => none
  | (k, v) :: m, a => if k = a then some v else read m a

/-- `MemWrite(S, i, v)` (R12): one element, whole (R62, R64). -/
def write : Memory α → Nat → α → Memory α
  | [], a, x => [(a, x)]
  | (k, v) :: m, a, x =>
    if k < a then (k, v) :: write m a x
    else if k = a then (a, x) :: m
    else (a, x) :: (k, v) :: m

/-- The space that holds the elements of `xs` at `i`, `i + 1`, … and nothing else. -/
def ofListFrom (i : Nat) : List α → Memory α
  | [] => []
  | x :: xs => (i, x) :: ofListFrom (i + 1) xs

/-- The space with every one of its elements written: element `j` is `xs[j]`. -/
def ofList (xs : List α) : Memory α := ofListFrom 0 xs

/-- The elements `0 .. n-1` of a space of `n` elements, `none` unless every one of them has been written. -/
def row? (m : Memory α) (n : Nat) : Option (List α) :=
  if m.map Prod.fst = List.range n then some (m.map Prod.snd) else none

end Memory

end Sys2Proof.Machine
end

