-- ==== Sys2Proof/Machine/State.lean ====
section
/-!
DEFINITION. The state of GCORR as plain data (spec/10_state.md R20), the reasons a step of the model can stop,
and the state after reset (R42).
-/

namespace Sys2Proof.Machine

/-- What the host does at the command port, one event at a time (R101, R210, R228, R230; log entries 3, 7). -/
inductive PortEvent where
  /-- A command word is handed over and runs to completion. -/
  | command (w : Word)
  /-- The `rst` input is asserted while no command runs (R210). -/
  | rst
  /-- A command word is handed over and `rst` is asserted when `k` iterations of its body have run (R228). -/
  | commandThenRst (w : Word) (k : Nat)
deriving DecidableEq, Repr

/-- The state of GCORR (R20), and beside it what R20 says is no state and a step still needs: the configuration
(R7), the output channels as event histories (R39), and the command port. -/
structure State where
  /-- `Cfg`: fixed, written by nothing (R7, R211). Its field `taps` is the `TAPS` memory (R28). -/
  cfg : Cfg
  /-- `RA`, LFSR register A (R21). -/
  ra : Reg10
  /-- `RB`, LFSR register B (R21). -/
  rb : Reg10
  /-- `ID`, the identity the generator is bound to (R26). -/
  id : BitVec 8
  /-- `GVALID` (R26). -/
  gvalid : Bool
  /-- `CHIP`, the last chip produced (R27). -/
  chip : Bool
  /-- `CODE`, by rows: a row is written only as a whole (R29; log entry 8). -/
  code : Memory (List Bool)
  /-- `CVALID`, bit `id` for identity `id` (R29). -/
  cvalid : BitVec 256
  /-- `SAMP`, the sample buffer (R30). -/
  samp : Memory Sample
  /-- `SLEN`, the number of samples loaded (R30). -/
  slen : BitVec 11
  /-- `PHASE`, rotations modulo `L` (R30). -/
  phase : BitVec 10
  /-- `ACC`, the last correlation sum (R31). -/
  acc : AccWord
  /-- `SCORE`, the last score (R31). -/
  score : AccWord
  /-- `CLASS`, the last classification (R31). -/
  cls : BitVec 2
  /-- `FAULT` (R32). -/
  fault : Bool
  /-- `CAUSE` (R32, R181). -/
  cause : BitVec 4
  /-- `FCMD`, the word that faulted (R32). -/
  fcmd : Word
  /-- `CHIPOUT`, oldest first (R39, R100). -/
  chipout : List Bool
  /-- `RESOUT`, oldest first (R39, R99). -/
  resout : List Word
  /-- `RDOUT`, oldest first (R39, R100). -/
  rdout : List Word
  /-- What the host has still to do at the command port, next first (R101). -/
  port : List PortEvent
deriving DecidableEq, Repr

/-- Why a step of the MODEL stops. GCORR's own fault (R180) is no stop: it is a next state (R186). Each of these is
safe and is reached from no state that satisfies the invariants of R41. -/
inductive Fault where
  /-- CORR or DECODE, when `CODE[id]` holds no complete row although `CVALID[id]` is 1 (R29: "no rule ever reads an
  unspecified element"). Safe. -/
  | unwrittenCode
  /-- ROT, CORR or DECODE, when an element of `SAMP` holds no value although `SLEN = L` (R30: "no rule ever reads an
  unspecified element"). Safe. -/
  | unwrittenSample
  /-- GSTEP, GGEN or GMAT, when `TAPS` has no entry for the identity (R63: "`TAPS[ID]` is always in range"). Safe. -/
  | noTapEntry
deriving DecidableEq, Repr

/-- Why the model has no meaning for an instruction. -/
inductive Refusal where
  /-- Raised by an arm of `exec` whose instruction has no meaning yet; safe. No arm raises it. -/
  | notModelled (mnemonic : String)
deriving DecidableEq, Repr

/-- What an instruction answers. -/
abbrev Result := Host.Outcome State Fault Refusal

/-- The machine built with the configuration `c`, right after reset (R42): `CODE` and `SAMP` hold no value; nothing has
been emitted and the host has done nothing. -/
def State.resetOf (c : Cfg) : State where
  cfg := c
  ra := 0x3FF
  rb := 0x3FF
  id := 0
  gvalid := false
  chip := false
  code := []
  cvalid := 0
  samp := []
  slen := 0
  phase := 0
  acc := 0
  score := 0
  cls := 0b00
  fault := false
  cause := 0
  fcmd := 0
  chipout := []
  resout := []
  rdout := []
  port := []

/-- The machine right after reset (R42, R210), with the configuration the block is built with. -/
def State.reset : State := State.resetOf Config.built

end Sys2Proof.Machine
end

