-- ==== Sys2Proof/Machine/Ops.lean ====
section
/-!
DEFINITION. The operations every command is written over: evaluating a precondition, taking a fault and
dropping a command while a fault stands (spec/60_exceptions.md R181, R186, R188), reset (spec/10_state.md R42), and
appending to the output channels (R39).
-/

namespace Sys2Proof.Machine

/-! ## Taking a fault -/

/-- The causes of a fault (R181). -/
inductive Cause where
  | illegalCmd
  | idRange
  | lenMismatch
  | noGen
  | noCode
deriving DecidableEq, Repr

/-- The code of a cause (R181). -/
def Cause.code : Cause → BitVec 4
  | .illegalCmd => 1
  | .idRange => 2
  | .lenMismatch => 3
  | .noGen => 4
  | .noCode => 5

/-- The state after fault entry: the three diagnostic registers and nothing else (R186). -/
def State.enterFault (s : State) (x : Cause) (cmd : Word) : State :=
  { s with fault := true, cause := x.code, fcmd := cmd }

/-- `raise Fault(x)` for the command word `cmd` (R12, R186). GCORR goes on: this is a next state. -/
def raiseFault (x : Cause) (cmd : Word) (s : State) : Result := .next (s.enterFault x cmd)

/-- `require c else Fault(x)`, before any effect (R12). -/
def require (c : Bool) (x : Cause) (cmd : Word) (s : State) (body : Result) : Result :=
  if c then body else raiseFault x cmd s

/-- A command that is dropped while `FAULT = 1` (R188). -/
def unlessFaulted (s : State) (body : Result) : Result := if s.fault then .next s else body

/-- What an illegal word does: ILLEGAL_CMD, or nothing while `FAULT = 1` (R95, R188). -/
def illegalWord (cmd : Word) (s : State) : Result := unlessFaulted s (raiseFault .illegalCmd cmd s)

/-! ## Leaving a fault: reset, and nothing else (R189) -/

/-- Reset, by the `rst` input or by SRST (R42, R172, R210): every piece of state at its reset value. The configuration
is not touched, what was emitted stays emitted (R211), and what the host does next is the host's (R230). -/
def State.toReset (s : State) : State :=
  { State.resetOf s.cfg with chipout := s.chipout, resout := s.resout, rdout := s.rdout, port := s.port }

/-! ## Output channels: `emit CH(v)` (R12, R39) -/

/-- Appends chips to `CHIPOUT`. -/
def State.emitChips (s : State) (chips : List Bool) : State := { s with chipout := s.chipout ++ chips }

/-- Appends a word to `RESOUT`. -/
def State.emitResult (s : State) (w : Word) : State := { s with resout := s.resout ++ [w] }

/-- Appends a word to `RDOUT`. -/
def State.emitRead (s : State) (w : Word) : State := { s with rdout := s.rdout ++ [w] }

/-! ## A body that may meet an element without a value -/

/-- The answer of a body that either has a next state or meets an element that holds no value. -/
def finish : Except Fault State → Result
  | .ok s => .next s
  | .error e => .fault e

end Sys2Proof.Machine
end

