-- ==== Sys2Proof/Machine/Operands.lean ====
section
/-!
DEFINITION. How the commands reach their operands: the cells of an LFSR register (spec/10_state.md R22, R23),
the entries of `TAPS`, `CODE` and `SAMP` (spec/20_memory.md R60), and the tests on an identity and on the buffer.
-/

namespace Sys2Proof.Machine

/-! ## LFSR registers -/

/-- Read-cell-by-index: cell `i`, 1-based from the front, is bit `10 - i` (R21, R22). -/
def cell (r : Reg10) (i : CellIdx) : Bool := r.getLsbD (10 - i.val)

/-- The output cell, cell 10 (R21). -/
def outputCell : CellIdx := ⟨10, by decide⟩

/-- Shift-in-front: the new bit becomes cell 1 and cell 10 is discarded: `(r >> 1) | (b << 9)` (R23). -/
def shiftIn (r : Reg10) (b : Bool) : Reg10 := (r >>> 1) ||| (if b then 0x200 else 0)

/-! ## Memories -/

/-- `TAPS[id]` (R28). -/
def State.tapPair? (s : State) (id : BitVec 8) : Option TapPair := s.cfg.taps[id.toNat]?

/-- `CODE[id][0 .. L-1]`, `none` unless the whole row has been written (R29). -/
def State.codeRow? (s : State) (id : BitVec 8) : Option (List Bool) :=
  match s.code.read id.toNat with
  | some row => if row.length = s.cfg.l then some row else none
  | none => none

/-- `CODE[id][k]` (R29, R60). -/
def State.codeAt? (s : State) (id k : Nat) : Option Bool := (s.code.read id).bind (·[k]?)

/-- `SAMP[0 .. L-1]`, `none` unless every element holds a value (R30). -/
def State.sampRow? (s : State) : Option (List Sample) := s.samp.row? s.cfg.l

/-- `SAMP[j]` (R30, R60). -/
def State.sampAt? (s : State) (j : Nat) : Option Sample := s.samp.read j

/-! ## Tests in the commands' `require` lines -/

/-- `id < N`. -/
def State.idInRange (s : State) (id : BitVec 8) : Bool := decide (id.toNat < s.cfg.n)

/-- `CVALID[id] = 1`. -/
def State.rowValid (s : State) (id : BitVec 8) : Bool := s.cvalid.getLsbD id.toNat

/-- `CVALID` with bit `id` set. -/
def setValid (v : BitVec 256) (id : BitVec 8) : BitVec 256 := v ||| (1#256 <<< id.toNat)

end Sys2Proof.Machine
end

