-- ==== Sys2Proof/Machine/Flags.lean ====
section
/-!
DEFINITION. The status flags (spec/10_state.md R34): the classification of a score (spec/42_correlator.md
R153), the derived flag `SFULL`, the STATUS word (R36) and the `CVALIDw` words (R35).
-/

namespace Sys2Proof.Machine

/-- `classify(s)`: both comparisons signed and inclusive, the high test first (R153). -/
def classify (c : Cfg) (score : Int) : BitVec 2 :=
  if score ≥ c.thrHi then 0b11
  else if score ≤ c.thrLo then 0b10
  else 0b00

/-- `CLASS[1]`: determined (R31). -/
def classDetermined (cls : BitVec 2) : Bool := cls.getLsbD 1

/-- `CLASS[0]`: the bit value (R31). -/
def classBit (cls : BitVec 2) : Bool := cls.getLsbD 0

/-- `SFULL = (SLEN == L)`, derived, not stored (R34). -/
def State.sfull (s : State) : Bool := decide (s.slen.toNat = s.cfg.l)

/-- The STATUS word (R36): bits 31:11 reserved, CHIP, CLASS, CAUSE, a reserved bit, SFULL, GVALID, FAULT. -/
def State.statusWord (s : State) : Word :=
  0#21 ++ BitVec.ofBool s.chip ++ s.cls ++ s.cause ++ 0#1 ++ BitVec.ofBool s.sfull ++ BitVec.ofBool s.gvalid ++
    BitVec.ofBool s.fault

/-- `CVALIDw`: bit `b` is `CVALID[32*w + b]` if `32*w + b < N`, else 0 (R35). -/
def State.cvalidWord (s : State) (w : Fin 8) : Word :=
  BitVec.ofNat 32 ((s.cvalid.toNat % 2 ^ s.cfg.n) >>> (32 * w.val))

end Sys2Proof.Machine
end

