-- ==== Sys2Proof/Machine/SampleBuffer.lean ====
section
/-!
DEFINITION. The sample buffer (spec/41_sample_buffer.md): SCLR, SPUSH, ROT (R140 to R142).
-/

namespace Sys2Proof.Machine

/-- The buffer emptied: every `SAMP[j]` counts as unwritten (R140). -/
def State.clearBuffer (s : State) : State := { s with samp := [], slen := 0, phase := 0 }

/-- `SAMP[SLEN] <- v`, `SLEN <- SLEN + 1` (R141). The element is as wide as the operand: nothing is extended (R174). -/
def State.pushSample (s : State) (v : Sample) : State :=
  { s with samp := s.samp.write s.slen.toNat v, slen := s.slen + 1 }

/-- The last element moved to the front (R142). -/
def rotateList (xs : List Sample) : List Sample :=
  match xs.getLast? with
  | some x => x :: xs.dropLast
  | none => []

/-- `(PHASE + 1) mod L` (R142). -/
def nextPhase (c : Cfg) (p : BitVec 10) : BitVec 10 := BitVec.ofNat 10 ((p.toNat + 1) % c.l)

/-- The state with the buffer `xs`, all of its elements, rotated by one position, and `PHASE` moved on (R142). -/
def State.rotated (s : State) (xs : List Sample) : State :=
  { s with samp := Memory.ofList (rotateList xs), phase := nextPhase s.cfg s.phase }

/-- The body of ROT without its `require` (R142): the old elements are read before any is written (R68). -/
def rotBody (s : State) : Except Fault State :=
  match s.sampRow? with
  | some xs => .ok (s.rotated xs)
  | none => .error .unwrittenSample

/-- SCLR (R140). -/
def execSclr (s : State) : Result :=
  unlessFaulted s <|
  .next s.clearBuffer

/-- SPUSH v (R141). -/
def execSpush (v : Sample) (s : State) : Result :=
  unlessFaulted s <|
  require (decide (s.slen.toNat < s.cfg.l)) .lenMismatch (encode (.spush v)) s <|
  .next (s.pushSample v)

/-- ROT (R142). -/
def execRot (s : State) : Result :=
  unlessFaulted s <|
  require s.sfull .lenMismatch (encode .rot) s <|
  finish (rotBody s)

end Sys2Proof.Machine
end

