-- ==== Sys2Proof/Machine/Correlator.lean ====
section
/-!
DEFINITION. The correlator (spec/42_correlator.md): its arithmetic (R150 to R153) and CORR, DECODE (R156, R157).
Sums and quotients are computed over the integers and narrowed once, to `ACC_W = 27` bits (R12, R151).
-/

namespace Sys2Proof.Machine

/-- `sgn(c)` (R150). -/
def sgn (c : Bool) : Int := if c then 1 else -1

/-- `Sum`: the samples weighted by the signs of the chips, position by position (R151). -/
def corrSum : List Bool → List Sample → Int
  | c :: cs, x :: xs => sgn c * x.toInt + corrSum cs xs
  | _, _ => 0

/-- `tdiv(a, f)`: the quotient truncated toward zero (R152). -/
def tdiv (a : Int) (f : Nat) : Int := a.tdiv f

/-- `ACC`, `SCORE` and `CLASS` written together from the sum `a` (R31, R156). -/
def State.setCorr (s : State) (a : Int) : State :=
  { s with
    acc := BitVec.ofInt 27 a
    score := BitVec.ofInt 27 (tdiv a s.cfg.f)
    cls := classify s.cfg (tdiv a s.cfg.f) }

/-- The result word: seven zeros, the bit, the identity, the phase (R99). -/
def resultWord (bit : Bool) (id : BitVec 8) (phase : BitVec 10) : Word :=
  0#7 ++ BitVec.ofBool bit ++ id ++ phase.setWidth 16

/-- The report of one DECODE iteration: a word when the class is determined, nothing otherwise (R157). -/
def State.report (s : State) (id : BitVec 8) : State :=
  if classDetermined s.cls then s.emitResult (resultWord (classBit s.cls) id s.phase) else s

/-- The body of CORR without its `require` lines (R156). -/
def corrBody (id : BitVec 8) (s : State) : Except Fault State :=
  match s.codeRow? id with
  | none => .error .unwrittenCode
  | some row =>
    match s.sampRow? with
    | none => .error .unwrittenSample
    | some xs => .ok (s.setCorr (corrSum row xs))

/-- One iteration of DECODE: the body of CORR, then the report, then the body of ROT (R157, R68). -/
def decodeIteration (id : BitVec 8) (s : State) : Except Fault State :=
  match corrBody id s with
  | .ok s' => rotBody (s'.report id)
  | .error e => .error e

/-- `trips` iterations of DECODE: no early exit (R157). -/
def decodeLoop (id : BitVec 8) : Nat → State → Except Fault State
  | 0, s => .ok s
  | n + 1, s =>
    match decodeIteration id s with
    | .ok s' => decodeLoop id n s'
    | .error e => .error e

/-- CORR id (R156). -/
def execCorr (id : BitVec 8) (s : State) : Result :=
  unlessFaulted s <|
  require (s.idInRange id) .idRange (encode (.corr id)) s <|
  require s.sfull .lenMismatch (encode (.corr id)) s <|
  require (s.rowValid id) .noCode (encode (.corr id)) s <|
  finish (corrBody id s)

/-- DECODE id, its loop run for `trips` iterations: all `L`, or fewer when `rst` cuts it short (R157, R228). -/
def decodeTrips (trips : Nat) (id : BitVec 8) (s : State) : Result :=
  unlessFaulted s <|
  require (s.idInRange id) .idRange (encode (.decode id)) s <|
  require s.sfull .lenMismatch (encode (.decode id)) s <|
  require (s.rowValid id) .noCode (encode (.decode id)) s <|
  finish (decodeLoop id trips s)

/-- DECODE id (R157). -/
def execDecode (id : BitVec 8) (s : State) : Result := decodeTrips s.cfg.l id s

end Sys2Proof.Machine
end

