-- ==== Sys2Proof/Machine/Generator.lean ====
section
/-!
DEFINITION. The generator (spec/40_generator.md): the step function (R121) and GINIT, GSTEP, GGEN, GMAT
(R123 to R126).
-/

namespace Sys2Proof.Machine

/-- `GenStep(ra, rb, t1, t2)`: the new registers and the chip. Every cell is read from the old registers (R121, R122). -/
def genStep (c : Cfg) (ra rb : Reg10) (t : TapPair) : Reg10 × Reg10 × Bool :=
  let aOut := cell ra outputCell
  let aFb := cell ra c.aTap ^^ cell ra outputCell
  let bSel := cell rb t.t1 ^^ cell rb t.t2
  let bFb := cell rb c.bTaps[0] ^^ cell rb c.bTaps[1] ^^ cell rb c.bTaps[2] ^^ cell rb c.bTaps[3] ^^
    cell rb c.bTaps[4] ^^ cell rb outputCell
  (shiftIn ra aFb, shiftIn rb bFb, aOut ^^ bSel)

/-- What the generator advances: the register pair and the last chip (R24, R27). -/
structure Gen where
  ra : Reg10
  rb : Reg10
  chip : Bool
deriving DecidableEq, Repr

/-- The register pair in the all-ones state (R24), the last chip as it was. -/
def Gen.start (chip : Bool) : Gen := ⟨0x3FF, 0x3FF, chip⟩

/-- One application of `GenStep` to the registers. -/
def Gen.advance (c : Cfg) (t : TapPair) (g : Gen) : Gen :=
  match genStep c g.ra g.rb t with
  | (ra, rb, chip) => ⟨ra, rb, chip⟩

/-- `n` applications of `GenStep`, and the chips in generation order. -/
def Gen.run (c : Cfg) (t : TapPair) : Nat → Gen → Gen × List Bool
  | 0, g => (g, [])
  | n + 1, g =>
    match Gen.run c t n (g.advance c t) with
    | (g', chips) => (g', (g.advance c t).chip :: chips)

/-- The generator part of the state. -/
def State.gen (s : State) : Gen := ⟨s.ra, s.rb, s.chip⟩

/-- The state with its generator part replaced. -/
def State.setGen (s : State) (g : Gen) : State := { s with ra := g.ra, rb := g.rb, chip := g.chip }

/-- `RA`, `RB` to all ones, `ID` bound, `GVALID` set (R123). -/
def State.bindGen (s : State) (id : BitVec 8) : State := { s with ra := 0x3FF, rb := 0x3FF, id := id, gvalid := true }

/-- The state with row `id` of `CODE` written and its `CVALID` bit set (R126). -/
def State.storeRow (s : State) (id : BitVec 8) (row : List Bool) : State :=
  { s with code := s.code.write id.toNat row, cvalid := setValid s.cvalid id }

/-- The body of GSTEP without its `require` (R124). -/
def gstepBody (s : State) : Except Fault State :=
  match s.tapPair? s.id with
  | some t => .ok ((s.setGen (s.gen.advance s.cfg t)).emitChips [(s.gen.advance s.cfg t).chip])
  | none => .error .noTapEntry

/-- The body of GGEN, run for `trips` chips (R125). -/
def ggenBody (trips : Nat) (s : State) : Except Fault State :=
  match s.tapPair? s.id with
  | some t =>
    match Gen.run s.cfg t trips s.gen with
    | (g, chips) => .ok ((s.setGen g).emitChips chips)
  | none => .error .noTapEntry

/-- The body of GMAT: bind, run `L` steps, store the row and set `CVALID[id]` after its last element (R126, R68). -/
def gmatBody (id : BitVec 8) (s : State) : Except Fault State :=
  match s.tapPair? id with
  | some t =>
    match Gen.run s.cfg t s.cfg.l (s.bindGen id).gen with
    | (g, row) => .ok (((s.bindGen id).setGen g).storeRow id row)
  | none => .error .noTapEntry

/-- GINIT id (R123). -/
def execGinit (id : BitVec 8) (s : State) : Result :=
  unlessFaulted s <|
  require (s.idInRange id) .idRange (encode (.ginit id)) s <|
  .next (s.bindGen id)

/-- GSTEP (R124). -/
def execGstep (s : State) : Result :=
  unlessFaulted s <|
  require s.gvalid .noGen (encode .gstep) s <|
  finish (gstepBody s)

/-- GGEN n, its body run for `trips` chips: all `n`, or fewer when `rst` cuts it short (R125, R228). -/
def ggenTrips (trips : Nat) (n : BitVec 16) (s : State) : Result :=
  unlessFaulted s <|
  require s.gvalid .noGen (encode (.ggen n)) s <|
  finish (ggenBody trips s)

/-- GGEN n (R125). -/
def execGgen (n : BitVec 16) (s : State) : Result := ggenTrips n.toNat n s

/-- GMAT id (R126). -/
def execGmat (id : BitVec 8) (s : State) : Result :=
  unlessFaulted s <|
  require (s.idInRange id) .idRange (encode (.gmat id)) s <|
  finish (gmatBody id s)

end Sys2Proof.Machine
end

