-- ==== Sys2Proof/Machine/System.lean ====
section
/-!
DEFINITION. The system commands (spec/43_system.md): NOP, RDREG, SRST (R170 to R172), which run whatever
`FAULT` is (R188), and the read-back register map (spec/10_state.md R35).
-/

namespace Sys2Proof.Machine

/-- `RegWord(r)` (R35): unsigned values zero-extended, `ACC`, `SCORE` and the thresholds sign-extended (R174). -/
def State.regWord (s : State) : ReadReg → Word
  | .status => s.statusWord
  | .fcmd => s.fcmd
  | .id => s.id.setWidth 32
  | .ra => s.ra.setWidth 32
  | .rb => s.rb.setWidth 32
  | .slen => s.slen.setWidth 32
  | .phase => s.phase.setWidth 32
  | .acc => s.acc.signExtend 32
  | .score => s.score.signExtend 32
  | .cfgN => BitVec.ofNat 32 s.cfg.n
  | .cfgL => BitVec.ofNat 32 s.cfg.l
  | .cfgF => BitVec.ofNat 32 s.cfg.f
  | .cfgThrHi => BitVec.ofInt 32 s.cfg.thrHi
  | .cfgThrLo => BitVec.ofInt 32 s.cfg.thrLo
  | .cvalid w => s.cvalidWord w

/-- NOP (R170). -/
def execNop (s : State) : Result := .next s

/-- RDREG r (R171). A reserved `r`, which no decoded command carries, makes an illegal word (R94, R95; log entry 9). -/
def execRdreg (r : BitVec 8) (s : State) : Result :=
  match readReg? r with
  | some reg => .next (s.emitRead (s.regWord reg))
  | none => illegalWord (encode (.rdreg r)) s

/-- SRST (R172). -/
def execSrst (s : State) : Result := .next s.toReset

end Sys2Proof.Machine
end

