-- ==== Sys2Proof/Machine/Dispatch.lean ====
section
/-!
DEFINITION. One arm per command (spec/30_encoding.md R93).
-/

namespace Sys2Proof.Machine

def exec (i : Instr) (s : State) : Host.Outcome State Fault Refusal :=
  match i with
  | .nop => Sys2Proof.Machine.execNop s
  | .rdreg r => Sys2Proof.Machine.execRdreg r s
  | .srst => Sys2Proof.Machine.execSrst s
  | .ginit id => Sys2Proof.Machine.execGinit id s
  | .gstep => Sys2Proof.Machine.execGstep s
  | .ggen n => Sys2Proof.Machine.execGgen n s
  | .gmat id => Sys2Proof.Machine.execGmat id s
  | .sclr => Sys2Proof.Machine.execSclr s
  | .spush v => Sys2Proof.Machine.execSpush v s
  | .rot => Sys2Proof.Machine.execRot s
  | .corr id => Sys2Proof.Machine.execCorr id s
  | .decode id => Sys2Proof.Machine.execDecode id s

end Sys2Proof.Machine
end

