-- ==== Sys2Proof/Machine/Port.lean ====
section
/-!
DEFINITION. The command port (spec/30_encoding.md R101; spec/70_reset_and_hazards.md R210, R227, R228): what a
step does with what the host does.
-/

namespace Sys2Proof.Machine

/-- A command word handed over and run to completion; an illegal word is no command (R94, R95). -/
def takeWord (w : Word) (s : State) : Result :=
  match decode w with
  | .command i => exec i s
  | .illegal _ => illegalWord w s

/-- A command cut short by `rst` when `k` iterations of its body have run (R228). GGEN has one iteration a chip, DECODE
one a phase. GMAT emits nothing, so nothing of a part of it outlives the reset. Every other command is one iteration. -/
def execPrefix (k : Nat) (i : Instr) (s : State) : Result :=
  match i with
  | .ggen n => ggenTrips (min k n.toNat) n s
  | .decode id => decodeTrips (min k s.cfg.l) id s
  | .gmat _ => .next s
  | .nop => if k = 0 then .next s else exec .nop s
  | .rdreg r => if k = 0 then .next s else exec (.rdreg r) s
  | .srst => if k = 0 then .next s else exec .srst s
  | .ginit id => if k = 0 then .next s else exec (.ginit id) s
  | .gstep => if k = 0 then .next s else exec .gstep s
  | .sclr => if k = 0 then .next s else exec .sclr s
  | .spush v => if k = 0 then .next s else exec (.spush v) s
  | .rot => if k = 0 then .next s else exec .rot s
  | .corr id => if k = 0 then .next s else exec (.corr id) s

/-- `rst` while the word `w` is being run: what it had emitted stays emitted, the state is the reset state (R228). -/
def takeWordThenRst (w : Word) (k : Nat) (s : State) : Result :=
  match decode w with
  | .illegal _ => .next s.toReset
  | .command i =>
    match execPrefix k i s with
    | .next s' => .next s'.toReset
    | .fault r => .fault r
    | .refused r => .refused r

/-- What one port event does. -/
def takeEvent (e : PortEvent) (s : State) : Result :=
  match e with
  | .command w => takeWord w s
  | .rst => .next s.toReset
  | .commandThenRst w k => takeWordThenRst w k s

/-- `s` with the word `w` at the head of the port. -/
def State.offerWord (s : State) (w : Word) : State := { s with port := .command w :: s.port }

end Sys2Proof.Machine
end

