-- ==== Sys2Proof/Machine/Step.lean ====
section
/-!
DEFINITION. One step: the next event at the command port, or, when the host has nothing to do, an idle step
that leaves the machine as it is (spec/00_scope.md R6; spec/60_exceptions.md R199; spec/70_reset_and_hazards.md R210).
-/

namespace Sys2Proof.Machine

/-- One step of GCORR. -/
def step (s : State) : Host.Outcome State Fault Refusal :=
  match s.port with
  | [] => .next s
  | e :: rest => takeEvent e { s with port := rest }

/-- `s` with a word of `nbits` bits handed over next at the command port: GCORR stores no program, so the place its
next instruction comes from is the port (R33, R101; log entry 3). -/
def State.withFetchWord (s : State) (nbits w : Nat) : State := s.offerWord (BitVec.ofNat 32 (w % 2 ^ nbits))

end Sys2Proof.Machine
end

