-- ==== Sys2Proof/Machine/Pseudo.lean ====
section
/-!
DEFINITION. The pseudo-commands (spec/30_encoding.md R98), each as the commands it expands to, and how a list of
commands is issued at the port.
-/

namespace Sys2Proof.Machine

/-- `GENSEQ id, n`. -/
def genseq (id : BitVec 8) (n : BitVec 16) : List Instr := [.ginit id, .ggen n]

/-- `GMATALL`: every identity, ascending. -/
def gmatall (c : Cfg) : List Instr := (List.range c.n).map fun k => .gmat (BitVec.ofNat 8 k)

/-- `SLOAD v0, v1, …`. -/
def sload (vs : List Sample) : List Instr := .sclr :: vs.map .spush

/-- `SCANALL`: every identity, ascending. -/
def scanall (c : Cfg) : List Instr := (List.range c.n).map fun k => .decode (BitVec.ofNat 8 k)

/-- `RUN v0, v1, …`: the whole batch run. -/
def runBatch (c : Cfg) (vs : List Sample) : List Instr := gmatall c ++ sload vs ++ scanall c

/-- `s` with the commands of `is` handed over next, in order. -/
def State.issue (s : State) (is : List Instr) : State := { s with port := is.map (.command ∘ encode) ++ s.port }

/-- The commands of `is` executed one after the other, stopping at a stop of the model (R67). -/
def execList : List Instr → State → Result
  | [], s => .next s
  | i :: is, s =>
    match exec i s with
    | .next s' => execList is s'
    | .fault r => .fault r
    | .refused r => .refused r

end Sys2Proof.Machine
end

