-- ==== Sys2Proof/Safety.lean ====
section
/-!
DEFINITION. What counts as a safe run: the invariants of spec/10_state.md R41 (with R29, R30, R32 and the
canonical form of the memories), a step that does not stop, and a successful end (spec/70_reset_and_hazards.md R229).
-/

namespace Sys2Proof.Machine

/-- The invariants of every state a valid configuration can reach. -/
structure State.Inv (s : State) : Prop where
  /-- `CfgOK`, the premise of every rule (R8, R213). -/
  cfg_ok : s.cfg.OK
  /-- `ID < N` (R26, R41). -/
  id_lt : s.id.toNat < s.cfg.n
  /-- `SLEN <= L` (R30, R41). -/
  slen_le : s.slen.toNat ≤ s.cfg.l
  /-- `PHASE < L` (R30, R41). -/
  phase_lt : s.phase.toNat < s.cfg.l
  /-- `SLEN < L` implies `PHASE = 0` (R41). -/
  phase_zero : s.slen.toNat < s.cfg.l → s.phase = 0
  /-- `CLASS` is never `0b01` (R31, R41). -/
  cls_ne : s.cls ≠ 0b01
  /-- `SCORE = tdiv(ACC, F)` (R41). -/
  score_eq : s.score.toInt = tdiv s.acc.toInt s.cfg.f
  /-- `CLASS = classify(SCORE)` (R41). -/
  cls_eq : s.cls = classify s.cfg s.score.toInt
  /-- `FAULT = 0` implies `CAUSE = 0` and `FCMD = 0` (R32, R41). -/
  diag_clear : s.fault = false → s.cause = 0 ∧ s.fcmd = 0
  /-- `FAULT = 1` implies `1 <= CAUSE <= 5` (R32). -/
  diag_set : s.fault = true → 1 ≤ s.cause.toNat ∧ s.cause.toNat ≤ 5
  /-- `GVALID = 0` implies `RA = RB = 0x3FF` and `ID = 0` (R41). -/
  unbound : s.gvalid = false → s.ra = 0x3FF ∧ s.rb = 0x3FF ∧ s.id = 0
  /-- `-(2^15) * L <= ACC` (R41). -/
  acc_ge : -(2 ^ 15 * (s.cfg.l : Int)) ≤ s.acc.toInt
  /-- `ACC <= (2^15) * L` (R41). -/
  acc_le : s.acc.toInt ≤ 2 ^ 15 * (s.cfg.l : Int)
  /-- `CODE` is in canonical form. -/
  code_wf : s.code.wf
  /-- Every row that holds a value is the row of an identity and has `L` chips (R29). -/
  code_rows : ∀ p ∈ s.code, p.1 < s.cfg.n ∧ p.2.length = s.cfg.l
  /-- A row whose `CVALID` bit is 1 has been written (R29). -/
  code_valid : ∀ k < 256, s.cvalid.getLsbD k = true → (s.code.read k).isSome = true
  /-- Exactly the elements `SAMP[0 .. SLEN-1]` hold values (R30): `SAMP` is in canonical form. -/
  samp_listed : s.samp.map Prod.fst = List.range s.slen.toNat

/-- A step that answers a next state. -/
def State.StepsOn (s : State) : Prop := ∃ t, step s = .next t

/-- A run has ended and is successful (R229): the host has nothing left to do and `FAULT = 0`. -/
def State.Successful (s : State) : Prop := s.port = [] ∧ s.fault = false

end Sys2Proof.Machine
end

