-- ==== Sys2Proof/Certificates/Slice0/Obligations.lean ====
section
/-!
DEFINITION. The statements about GCORR. Each docstring names the rule of spec/ it formalises.
Where a statement asks for `s.Inv`, the invariants of Sys2Proof/Safety.lean, the statements StepKeepsInvariants and
ResetStateMeetsInvariants say that they hold along every run.
-/

open Sys2Proof Sys2Proof.Machine

namespace Sys2Proof.Claim

/-! ## Words the statements are written in -/

/-- Every register and memory of `t` is as R42 says it is after reset: no element of `CODE` or `SAMP` has a value. -/
def ResetValues (t : State) : Prop :=
  t.ra = 0x3FF ∧ t.rb = 0x3FF ∧ t.id = 0 ∧ t.gvalid = false ∧ t.chip = false ∧
  (∀ id k, t.codeAt? id k = none) ∧ (∀ id < 256, t.cvalid.getLsbD id = false) ∧
  (∀ j, t.sampAt? j = none) ∧ t.slen = 0 ∧ t.phase = 0 ∧
  t.acc = 0 ∧ t.score = 0 ∧ t.cls = 0b00 ∧ t.fault = false ∧ t.cause = 0 ∧ t.fcmd = 0

/-- `t` has the channels, the configuration and the port of `s`. -/
def SameSurroundings (s t : State) : Prop :=
  t.cfg = s.cfg ∧ t.chipout = s.chipout ∧ t.resout = s.resout ∧ t.rdout = s.rdout ∧ t.port = s.port

/-- `i` faults in `s` with the cause code `x`: a next state in which FAULT, CAUSE and FCMD are written and nothing else
changes (R186). -/
def Faults (i : Instr) (s : State) (x : BitVec 4) : Prop :=
  exec i s = .next { s with fault := true, cause := x, fcmd := encode i }

/-- The words R95 calls illegal: (a) no opcode, (b) a must-be-zero bit set, (c) a reserved register number. -/
def IllegalWord (w : Word) : Prop :=
  let op := w.extractLsb' 24 8
  op ∉ [0x00#8, 0x01, 0x02, 0x10, 0x11, 0x12, 0x13, 0x20, 0x21, 0x22, 0x30, 0x31] ∨
  (op ∈ [0x00#8, 0x02, 0x11, 0x20, 0x22] ∧ w.extractLsb' 0 24 ≠ 0) ∨
  (op ∈ [0x01#8, 0x10, 0x13, 0x30, 0x31] ∧ w.extractLsb' 8 16 ≠ 0) ∨
  (op ∈ [0x12#8, 0x21] ∧ w.extractLsb' 16 8 ≠ 0) ∨
  (op = 0x01#8 ∧ ¬ (w.extractLsb' 0 8 ≤ 0x08#8 ∨ (0x10#8 ≤ w.extractLsb' 0 8 ∧ w.extractLsb' 0 8 ≤ 0x14#8) ∨
    (0x20#8 ≤ w.extractLsb' 0 8 ∧ w.extractLsb' 0 8 ≤ 0x27#8)))

/-- `v` is the word of register number `r` in `s` (R35, and R36 for STATUS). -/
def RegWordIs (s : State) (r : BitVec 8) (v : Word) : Prop :=
  (r = 0x00 → v.getLsbD 0 = s.fault ∧ v.getLsbD 1 = s.gvalid ∧ v.getLsbD 2 = decide (s.slen.toNat = s.cfg.l) ∧
    v.getLsbD 3 = false ∧ v.extractLsb' 4 4 = s.cause ∧ v.extractLsb' 8 2 = s.cls ∧ v.getLsbD 10 = s.chip ∧
    v.extractLsb' 11 21 = 0) ∧
  (r = 0x01 → v = s.fcmd) ∧
  (r = 0x02 → v.toNat = s.id.toNat) ∧
  (r = 0x03 → v.toNat = s.ra.toNat) ∧
  (r = 0x04 → v.toNat = s.rb.toNat) ∧
  (r = 0x05 → v.toNat = s.slen.toNat) ∧
  (r = 0x06 → v.toNat = s.phase.toNat) ∧
  (r = 0x07 → v.toInt = s.acc.toInt) ∧
  (r = 0x08 → v.toInt = s.score.toInt) ∧
  (r = 0x10 → v.toNat = s.cfg.n) ∧
  (r = 0x11 → v.toNat = s.cfg.l) ∧
  (r = 0x12 → v.toNat = s.cfg.f) ∧
  (r = 0x13 → v.toInt = s.cfg.thrHi) ∧
  (r = 0x14 → v.toInt = s.cfg.thrLo) ∧
  (∀ w < 8, r.toNat = 0x20 + w → ∀ b < 32,
    v.getLsbD b = (decide (32 * w + b < s.cfg.n) && s.cvalid.getLsbD (32 * w + b)))

/-- The code of the first failing test of a command, in the order of R184, when the command is well formed. -/
def firstFailing (s : State) : Instr → Option (BitVec 4)
  | .nop => none
  | .rdreg _ => none
  | .srst => none
  | .ginit id => if s.cfg.n ≤ id.toNat then some 2 else none
  | .gstep => if s.gvalid = false then some 4 else none
  | .ggen _ => if s.gvalid = false then some 4 else none
  | .gmat id => if s.cfg.n ≤ id.toNat then some 2 else none
  | .sclr => none
  | .spush _ => if s.cfg.l ≤ s.slen.toNat then some 3 else none
  | .rot => if s.slen.toNat ≠ s.cfg.l then some 3 else none
  | .corr id =>
    if s.cfg.n ≤ id.toNat then some 2
    else if s.slen.toNat ≠ s.cfg.l then some 3
    else if s.cvalid.getLsbD id.toNat = false then some 5
    else none
  | .decode id =>
    if s.cfg.n ≤ id.toNat then some 2
    else if s.slen.toNat ≠ s.cfg.l then some 3
    else if s.cvalid.getLsbD id.toNat = false then some 5
    else none

/-- The sign of the chip read, 0 where there is none. -/
def chipSign : Option Bool → Int
  | some true => 1
  | some false => -1
  | none => 0

/-- The value of the sample read, 0 where there is none. -/
def sampleValue : Option Sample → Int
  | some x => x.toInt
  | none => 0

/-- The correlation sum of identity `id` when the buffer of `s` has been rotated `p` more times (R151, R157). -/
def sumAt (s : State) (id : BitVec 8) (p : Nat) : Int :=
  ((List.range s.cfg.l).map fun j =>
    chipSign (s.codeAt? id.toNat j) * sampleValue (s.sampAt? ((j + (s.cfg.l - p % s.cfg.l)) % s.cfg.l))).sum

/-- CORR and DECODE of `id` meet their preconditions in `s` (R156, R157). -/
def ReadyFor (s : State) (id : BitVec 8) : Prop :=
  s.Inv ∧ s.fault = false ∧ id.toNat < s.cfg.n ∧ s.slen.toNat = s.cfg.l ∧ s.cvalid.getLsbD id.toNat = true

/-- The class of a sum, by the thresholds scaled with `F` (R154). -/
def classOfSum (c : Cfg) (a : Int) : BitVec 2 :=
  if c.thrHi * c.f ≤ a then 0b11 else if a ≤ c.thrLo * c.f then 0b10 else 0b00

/-- The result word a phase gives, if any: seven zeros, the bit, the identity and the phase in 16 bits (R99). -/
def reportOf (c : Cfg) (id : BitVec 8) (phase : Nat) (a : Int) : Option Word :=
  if classOfSum c a = 0b11 then some (0x01#8 ++ id ++ BitVec.ofNat 16 phase)
  else if classOfSum c a = 0b10 then some (0x00#8 ++ id ++ BitVec.ofNat 16 phase)
  else none

/-- `n` times: the command CORR, a result word when its class is determined, the command ROT (R157). -/
def decodeByCommands (id : BitVec 8) : Nat → State → Result
  | 0, s => .next s
  | n + 1, s =>
    match exec (.corr id) s with
    | .next u =>
      match exec .rot
        (if u.cls.getLsbD 1 then
          { u with resout := u.resout ++ [0#7 ++ BitVec.ofBool (u.cls.getLsbD 0) ++ id ++ u.phase.setWidth 16] }
        else u) with
      | .next v => decodeByCommands id n v
      | .fault r => .fault r
      | .refused r => .refused r
    | .fault r => .fault r
    | .refused r => .refused r

end Sys2Proof.Claim

open Sys2Proof.Claim

/-! ## Encoding -/

/-- One word of each command, written out from the formats and the opcode map (R91, R93; vectors V17, V23). -/
def Obligations.DecoderReadsSpecWords : Prop :=
  decode 0x00000000 = .command .nop ∧ decode 0x01000003 = .command (.rdreg 0x03) ∧
  decode 0x02000000 = .command .srst ∧ decode 0x10000018 = .command (.ginit 24) ∧
  decode 0x11000000 = .command .gstep ∧ decode 0x1200FFFF = .command (.ggen 65535) ∧
  decode 0x13000005 = .command (.gmat 5) ∧ decode 0x20000000 = .command .sclr ∧
  decode 0x2100FF9C = .command (.spush (BitVec.ofInt 16 (-100))) ∧ decode 0x22000000 = .command .rot ∧
  decode 0x300000C8 = .command (.corr 200) ∧ decode 0x31000001 = .command (.decode 1)

/-- Decoding an encoded well-formed command gives it back, at every operand value. -/
def Obligations.DecodeOfEncode : Prop :=
  ∀ i : Instr, i.wf = true → decode (encode i) = .command i

/-- A word that decodes to a command is the word of that command: no bit of it is ignored, and no encoding executes as
another command (R95). -/
def Obligations.EncodeOfDecode : Prop :=
  ∀ (w : Word) (i : Instr), decode w = .command i → encode i = w ∧ i.wf = true

/-- The opcode map with its masks and match values (R93), and RDREG's register numbers (R94): each row is selected by
exactly its words, and a word that no row selects is illegal. -/
def Obligations.OpcodeMapSelects : Prop :=
  ∀ w : Word,
    (decode w = .command .nop ↔ w &&& 0xFFFFFFFF = 0x00000000) ∧
    (∀ r, decode w = .command (.rdreg r) ↔
      w &&& 0xFFFFFF00 = 0x01000000 ∧ r = w.extractLsb' 0 8 ∧ legalRegNum r = true) ∧
    (decode w = .command .srst ↔ w &&& 0xFFFFFFFF = 0x02000000) ∧
    (∀ id, decode w = .command (.ginit id) ↔ w &&& 0xFFFFFF00 = 0x10000000 ∧ id = w.extractLsb' 0 8) ∧
    (decode w = .command .gstep ↔ w &&& 0xFFFFFFFF = 0x11000000) ∧
    (∀ n, decode w = .command (.ggen n) ↔ w &&& 0xFFFF0000 = 0x12000000 ∧ n = w.extractLsb' 0 16) ∧
    (∀ id, decode w = .command (.gmat id) ↔ w &&& 0xFFFFFF00 = 0x13000000 ∧ id = w.extractLsb' 0 8) ∧
    (decode w = .command .sclr ↔ w &&& 0xFFFFFFFF = 0x20000000) ∧
    (∀ v, decode w = .command (.spush v) ↔ w &&& 0xFFFF0000 = 0x21000000 ∧ v = w.extractLsb' 0 16) ∧
    (decode w = .command .rot ↔ w &&& 0xFFFFFFFF = 0x22000000) ∧
    (∀ id, decode w = .command (.corr id) ↔ w &&& 0xFFFFFF00 = 0x30000000 ∧ id = w.extractLsb' 0 8) ∧
    (∀ id, decode w = .command (.decode id) ↔ w &&& 0xFFFFFF00 = 0x31000000 ∧ id = w.extractLsb' 0 8) ∧
    ((∀ i, decode w ≠ .command i) → ∃ why, decode w = .illegal why)

/-- Exactly the words of R95 are illegal; a step on one raises ILLEGAL_CMD (code 1) when FAULT = 0 and drops it when
FAULT = 1. -/
def Obligations.IllegalWordsFaultOrDrop : Prop :=
  (∀ w, IllegalWord w ↔ ∃ why, decode w = .illegal why) ∧
  (∀ (s : State) (w : Word) (rest : List PortEvent), s.port = .command w :: rest → IllegalWord w →
    (s.fault = false → step s = .next { s with port := rest, fault := true, cause := 1, fcmd := w }) ∧
    (s.fault = true → step s = .next { s with port := rest }))

/-! ## Steps and the port -/

/-- A step runs the command that the word at the port decodes to, on the state with that word taken; so it does with
the word of any well-formed command, and with a word placed by withFetchWord. -/
def Obligations.StepRunsDecodedCommand : Prop :=
  (∀ (s : State) (w : Word) (rest : List PortEvent) (i : Instr),
    s.port = .command w :: rest → decode w = .command i → step s = exec i { s with port := rest }) ∧
  (∀ (s : State) (rest : List PortEvent) (i : Instr),
    s.port = .command (encode i) :: rest → i.wf = true → step s = exec i { s with port := rest }) ∧
  (∀ (s : State) (nbits w : Nat) (i : Instr),
    decodeTableWord nbits w = some i → step (s.withFetchWord nbits w) = exec i s)

/-- R42, R172, R211: the `rst` input and SRST have the same effect, which puts every register and memory at its reset
value, emits nothing, and leaves the configuration and what was emitted alone; `rst` takes no command. -/
def Obligations.ResetReachesStatedValues : Prop :=
  (∀ s, ∃ t, exec .srst s = .next t ∧ ResetValues t ∧ SameSurroundings s t) ∧
  (∀ (s : State) (rest : List PortEvent), s.port = .rst :: rest →
    step s = exec .srst { s with port := rest })

/-- The model's choice (log entry 3), after what spec/60_exceptions.md section 7 and spec/70_reset_and_hazards.md section 1 say
of an idle block: while the host hands over nothing, a step, and so any number of steps, changes nothing. -/
def Obligations.IdleMachineStaysIdle : Prop :=
  ∀ s : State, s.port = [] → step s = .next s ∧ ∀ k, Host.Core.run Sys2Proof.core k s = .next s

/-- The model's reset state has the values of R42 for every configuration. That its channels and its port are empty, and
which configuration the built block has, are the model's choices (log entries 1, 2, 3, 4). -/
def Obligations.ResetStateHasStatedValues : Prop :=
  (∀ c, ResetValues (State.resetOf c) ∧ (State.resetOf c).cfg = c ∧ (State.resetOf c).chipout = [] ∧
    (State.resetOf c).resout = [] ∧ (State.resetOf c).rdout = [] ∧ (State.resetOf c).port = []) ∧
  ResetValues State.reset ∧ State.reset.cfg = Config.built

/-- `rst` asserted while a command runs (spec/70_reset_and_hazards.md R228): the state is the reset state, and each
channel holds a prefix of what the whole command would have emitted. The grain at which `rst` lands is the model's
choice (log entry 7). -/
def Obligations.RstDuringCommandKeepsPrefix : Prop :=
  ∀ (s : State) (w : Word) (k : Nat) (rest : List PortEvent), s.Inv → s.port = .commandThenRst w k :: rest →
    ∃ t u, step s = .next t ∧ takeWord w { s with port := rest } = .next u ∧
      ResetValues t ∧ t.cfg = s.cfg ∧ t.port = rest ∧
      (s.chipout <+: t.chipout ∧ t.chipout <+: u.chipout) ∧
      (s.resout <+: t.resout ∧ t.resout <+: u.resout) ∧
      (s.rdout <+: t.rdout ∧ t.rdout <+: u.rdout)

/-! ## Invariants -/

/-- The invariants hold right after reset, for every valid configuration, whatever the host is going to do. -/
def Obligations.ResetStateMeetsInvariants : Prop :=
  (∀ (c : Cfg) (todo : List PortEvent), c.OK → State.Inv { State.resetOf c with port := todo }) ∧ State.reset.Inv

/-- Every step keeps the invariants. -/
def Obligations.StepKeepsInvariants : Prop :=
  ∀ s t : State, s.Inv → step s = .next t → t.Inv

/-- No step from a state with the invariants stops: every command completes, faults or is dropped. -/
def Obligations.NoStepStops : Prop :=
  ∀ s : State, s.Inv → ∃ t, step s = .next t

/-- R41 of every state reachable from reset: from the reset state of a valid configuration, whatever the host does, every
number of steps ends in a state with the relations R41 lists. -/
def Obligations.ReachableStatesMeetR41 : Prop :=
  ∀ (c : Cfg) (todo : List PortEvent) (k : Nat), c.OK →
    ∃ t, Host.Core.run Sys2Proof.core k { State.resetOf c with port := todo } = .next t ∧
      t.cfg = c ∧ t.id.toNat < c.n ∧ t.slen.toNat ≤ c.l ∧ t.phase.toNat < c.l ∧
      (t.slen.toNat < c.l → t.phase = 0) ∧ t.cls ≠ 0b01 ∧
      t.score.toInt = t.acc.toInt.tdiv c.f ∧
      t.cls = (if t.score.toInt ≥ c.thrHi then 0b11 else if t.score.toInt ≤ c.thrLo then 0b10 else 0b00) ∧
      (t.fault = false → t.cause = 0) ∧
      (t.gvalid = false → t.ra = 0x3FF ∧ t.rb = 0x3FF ∧ t.id = 0) ∧
      -(2 ^ 15 * (c.l : Int)) ≤ t.acc.toInt ∧ t.acc.toInt ≤ 2 ^ 15 * (c.l : Int)

/-! ## Faults -/

/-- R186, R187: a step that enters the fault state took a command word, wrote FAULT, CAUSE and FCMD, FCMD with the whole
word, and changed nothing else. -/
def Obligations.FaultEntryWritesDiagnosticsOnly : Prop :=
  ∀ s t : State, s.fault = false → step s = .next t → t.fault = true →
    ∃ (w : Word) (rest : List PortEvent), s.port = .command w :: rest ∧
      1 ≤ t.cause.toNat ∧ t.cause.toNat ≤ 5 ∧
      t = { s with port := rest, fault := true, cause := t.cause, fcmd := w }

/-- R181, R182, R184: the first failing test of a command decides the cause, ILLEGAL_CMD before every other; and a command
none of whose tests fails never faults. -/
def Obligations.FirstFailingTestDecides : Prop :=
  (∀ (i : Instr) (s : State), i.wf = true → s.fault = false →
    (∀ x, firstFailing s i = some x → Faults i s x) ∧
    (firstFailing s i = none → ∀ t, exec i s = .next t → t.fault = false)) ∧
  (∀ (s : State) (w : Word) (rest : List PortEvent), s.fault = false → s.port = .command w :: rest →
    (∀ i, decode w ≠ .command i) → step s = .next { s with port := rest, fault := true, cause := 1, fcmd := w })

/-- R188: while FAULT = 1, NOP, RDREG of a register that exists and SRST execute as always, and every other word is
dropped: it changes nothing; and the run is not successful. -/
def Obligations.FaultStateDropsOtherWords : Prop :=
  (∀ s : State, s.fault = true → ¬ s.Successful) ∧
  ∀ (s : State) (w : Word) (rest : List PortEvent), s.fault = true → s.port = .command w :: rest →
    (decode w = .command .nop → step s = .next { s with port := rest }) ∧
    (∀ r, decode w = .command (.rdreg r) → s.cfg.OK →
      ∃ v, RegWordIs s r v ∧ step s = .next { s with port := rest, rdout := s.rdout ++ [v] }) ∧
    (decode w = .command .srst →
      ∃ t, step s = .next t ∧ ResetValues t ∧ SameSurroundings { s with port := rest } t) ∧
    (decode w ≠ .command .nop → (∀ r, decode w ≠ .command (.rdreg r)) → decode w ≠ .command .srst →
      step s = .next { s with port := rest })

/-- R189: FAULT, CAUSE and FCMD stay as they are until a reset, and a reset clears everything else with them. -/
def Obligations.OnlyResetLeavesFaultState : Prop :=
  ∀ s t : State, s.fault = true → step s = .next t →
    (t.fault = true ∧ t.cause = s.cause ∧ t.fcmd = s.fcmd) ∨
    (ResetValues t ∧ ∃ (e : PortEvent) (rest : List PortEvent), s.port = e :: rest ∧
      (e = .rst ∨ (∃ w k, e = .commandThenRst w k) ∨ (∃ w, e = .command w ∧ decode w = .command .srst)))

/-! ## Generator -/

/-- R22 and R23: cell `i` is bit `10 - i`; after a shift the new bit is cell 1 and cell `i` holds what cell `i - 1` held;
the worked examples of both rules. -/
def Obligations.CellsAndShiftIn : Prop :=
  (∀ (r : Reg10) (i : Nat) (h : 1 ≤ i ∧ i ≤ 10), cell r ⟨i, h⟩ = decide ((r.toNat >>> (10 - i)) % 2 = 1)) ∧
  (∀ (r : Reg10) (b : Bool), cell (shiftIn r b) ⟨1, by decide⟩ = b ∧
    (∀ (i : Nat) (h : 2 ≤ i ∧ i ≤ 10), cell (shiftIn r b) ⟨i, ⟨by omega, h.2⟩⟩ = cell r ⟨i - 1, by omega⟩)) ∧
  (cell 0x100 ⟨2, by decide⟩ = true ∧ cell 0x2FF ⟨2, by decide⟩ = false ∧ cell 0x001 ⟨10, by decide⟩ = true) ∧
  shiftIn (shiftIn (shiftIn 0x000 true) true) false = 0x180

/-- R128: from the all-ones state the first step is the same for every configuration; equal taps give register A's output
alone; a feedback tap at cell 10 feeds back 0. -/
def Obligations.GenStepProperties : Prop :=
  (∀ (c : Cfg) (t : TapPair), genStep c 0x3FF 0x3FF t = (0x1FF, 0x1FF, true)) ∧
  (∀ (c : Cfg) (t : TapPair) (ra rb : Reg10), t.t1 = t.t2 → (genStep c ra rb t).2.2 = ra.getLsbD 0) ∧
  (∀ (c : Cfg) (t : TapPair) (ra rb : Reg10), c.aTap.val = 10 → (genStep c ra rb t).1 = ra >>> 1)

/-- R123: GINIT binds the generator and changes nothing else; an identity outside the table faults with ID_RANGE. -/
def Obligations.GinitBindsGenerator : Prop :=
  ∀ (s : State) (id : BitVec 8), s.fault = false →
    (id.toNat < s.cfg.n →
      exec (.ginit id) s = .next { s with ra := 0x3FF, rb := 0x3FF, id := id, gvalid := true }) ∧
    (s.cfg.n ≤ id.toNat → Faults (.ginit id) s 2)

/-- R124 with R121 and R122: GSTEP computes feedback, selection and chip from the old cells (cell `i` as bit `10 - i`),
shifts both registers, stores and emits the chip, and changes nothing else; an unbound generator faults with NO_GEN. -/
def Obligations.GstepProducesOneChip : Prop :=
  ∀ s : State, s.fault = false →
    (∀ t : TapPair, s.gvalid = true → s.cfg.taps[s.id.toNat]? = some t →
      let aFb := s.ra.getLsbD (10 - s.cfg.aTap.val) ^^ s.ra.getLsbD 0
      let bFb := s.rb.getLsbD (10 - s.cfg.bTaps[0].val) ^^ s.rb.getLsbD (10 - s.cfg.bTaps[1].val) ^^
        s.rb.getLsbD (10 - s.cfg.bTaps[2].val) ^^ s.rb.getLsbD (10 - s.cfg.bTaps[3].val) ^^
        s.rb.getLsbD (10 - s.cfg.bTaps[4].val) ^^ s.rb.getLsbD 0
      let chip := s.ra.getLsbD 0 ^^ s.rb.getLsbD (10 - t.t1.val) ^^ s.rb.getLsbD (10 - t.t2.val)
      exec .gstep s = .next { s with
        ra := BitVec.ofBool aFb ++ s.ra.extractLsb' 1 9
        rb := BitVec.ofBool bFb ++ s.rb.extractLsb' 1 9
        chip := chip
        chipout := s.chipout ++ [chip] }) ∧
    (s.gvalid = false → Faults .gstep s 4)

/-- R125: GGEN n is GSTEP n times: exactly n chips, nothing else changed, nothing at all for n = 0; two GGENs are one of
the sum of their counts; an unbound generator faults with NO_GEN, for n = 0 too. -/
def Obligations.GgenIsGstepRepeated : Prop :=
  ∀ s : State, s.fault = false →
    (s.gvalid = true → (s.cfg.taps[s.id.toNat]?).isSome = true →
      (∀ n : BitVec 16, ∃ t, exec (.ggen n) s = .next t ∧ execList (List.replicate n.toNat .gstep) s = .next t ∧
        t = { s with ra := t.ra, rb := t.rb, chip := t.chip, chipout := t.chipout } ∧
        s.chipout <+: t.chipout ∧ t.chipout.length = s.chipout.length + n.toNat ∧ (n = 0 → t = s)) ∧
      (∀ a b : BitVec 16, a.toNat + b.toNat ≤ 65535 →
        execList [.ggen a, .ggen b] s = exec (.ggen (a + b)) s)) ∧
    (s.gvalid = false → ∀ n, Faults (.ggen n) s 4)

/-- R127: the chips of GINIT id; GGEN n depend on the configuration, `id` and `n` alone. -/
def Obligations.GenerationIsDeterministic : Prop :=
  ∀ (c : Cfg) (id : BitVec 8) (n : BitVec 16), c.OK → id.toNat < c.n →
    ∃ chips : List Bool, chips.length = n.toNat ∧
      ∀ s : State, s.cfg = c → s.fault = false →
        ∃ t, execList (genseq id n) s = .next t ∧ t.chipout = s.chipout ++ chips

/-- R126: GMAT id leaves the registers where GINIT id and L GSTEPs leave them, stores the chips those emit as row `id`, sets
the row's CVALID bit, emits nothing and changes nothing else, no other row and no other CVALID bit; an identity outside
the table faults with ID_RANGE. -/
def Obligations.GmatMaterialisesRow : Prop :=
  ∀ (s : State) (id : BitVec 8), s.fault = false →
    (s.cfg.OK → id.toNat < s.cfg.n → ∃ t u row,
      exec (.gmat id) s = .next t ∧
      execList (.ginit id :: List.replicate s.cfg.l .gstep) s = .next u ∧
      t = { s with
        ra := u.ra, rb := u.rb, chip := u.chip, id := id, gvalid := true, code := t.code, cvalid := t.cvalid } ∧
      row.length = s.cfg.l ∧ u.chipout = s.chipout ++ row ∧
      (∀ k, t.codeAt? id.toNat k = row[k]?) ∧
      (∀ j k, j ≠ id.toNat → t.codeAt? j k = s.codeAt? j k) ∧
      (∀ j < 256, t.cvalid.getLsbD j = (decide (j = id.toNat) || s.cvalid.getLsbD j))) ∧
    (s.cfg.n ≤ id.toNat → Faults (.gmat id) s 2)

/-- R98, R214: GMATALL makes every row valid and complete, and touches neither the buffer nor a channel. -/
def Obligations.GmatallMaterialisesEveryRow : Prop :=
  ∀ s : State, s.Inv → s.fault = false → ∃ t, execList (gmatall s.cfg) s = .next t ∧ t.fault = false ∧
    (∀ id < s.cfg.n, t.cvalid.getLsbD id = true ∧ ∀ k < s.cfg.l, (t.codeAt? id k).isSome = true) ∧
    t = { s with
      ra := t.ra, rb := t.rb, chip := t.chip, id := t.id, gvalid := true, code := t.code, cvalid := t.cvalid }

/-- R130 for the reference configuration: the rows of any two identities differ. -/
def Obligations.RefRowsAreDistinct : Prop :=
  ∀ (s : State) (a b : BitVec 8), s.cfg = Cfg.ref → s.fault = false → a.toNat < 24 → b.toNat < 24 → a ≠ b →
    ∃ t, execList [.gmat a, .gmat b] s = .next t ∧
      ∃ k < 1023, ∃ x y, t.codeAt? a.toNat k = some x ∧ t.codeAt? b.toNat k = some y ∧ x ≠ y

/-! ## Sample buffer -/

/-- R140: SCLR empties the buffer, every element of which then counts as unwritten, and changes nothing else. -/
def Obligations.SclrEmptiesBuffer : Prop :=
  ∀ s : State, s.fault = false → ∃ t, exec .sclr s = .next t ∧
    t = { s with samp := t.samp, slen := 0, phase := 0 } ∧ ∀ j, t.sampAt? j = none

/-- R141: SPUSH writes the one element SAMP[SLEN] and moves SLEN on; into a full buffer it faults with LEN_MISMATCH. -/
def Obligations.SpushAppendsSample : Prop :=
  ∀ (s : State) (v : Sample), s.fault = false →
    (s.slen.toNat < s.cfg.l → s.cfg.OK → ∃ t, exec (.spush v) s = .next t ∧
      t = { s with samp := t.samp, slen := t.slen } ∧ t.slen.toNat = s.slen.toNat + 1 ∧
      t.sampAt? s.slen.toNat = some v ∧ (∀ j, j ≠ s.slen.toNat → t.sampAt? j = s.sampAt? j)) ∧
    (s.cfg.l ≤ s.slen.toNat → Faults (.spush v) s 3)

/-- R142: ROT moves the last sample to the front and every other one place on, counts PHASE modulo L, and changes nothing
else; a buffer that is not full faults with LEN_MISMATCH. -/
def Obligations.RotMovesLastToFront : Prop :=
  ∀ s : State, s.fault = false →
    (s.Inv → s.slen.toNat = s.cfg.l → ∃ t, exec .rot s = .next t ∧
      t = { s with samp := t.samp, phase := t.phase } ∧
      t.phase.toNat = (s.phase.toNat + 1) % s.cfg.l ∧
      t.sampAt? 0 = s.sampAt? (s.cfg.l - 1) ∧
      (∀ j, 1 ≤ j → j < s.cfg.l → t.sampAt? j = s.sampAt? (j - 1)) ∧
      (∀ j, s.cfg.l ≤ j → t.sampAt? j = none)) ∧
    (s.slen.toNat ≠ s.cfg.l → Faults .rot s 3)

/-- R143: after `p` ROTs element `j` is the old element `(j - p) mod L` and PHASE has moved by `p` modulo L; after L ROTs the
state is what it was. -/
def Obligations.RotationAlgebra : Prop :=
  ∀ (s : State) (p : Nat), s.Inv → s.fault = false → s.slen.toNat = s.cfg.l →
    (∃ t, execList (List.replicate p .rot) s = .next t ∧
      t = { s with samp := t.samp, phase := t.phase } ∧
      t.phase.toNat = (s.phase.toNat + p) % s.cfg.l ∧
      (∀ j < s.cfg.l, t.sampAt? j = s.sampAt? ((j + (s.cfg.l - p % s.cfg.l)) % s.cfg.l))) ∧
    execList (List.replicate s.cfg.l .rot) s = .next s

/-- SLOAD (R98) of L samples fills the buffer with position `j` of the input at SAMP[j] (R141, R230), from any state that is
not faulted, and a further SPUSH faults (R214). -/
def Obligations.SloadPlacesInputInOrder : Prop :=
  ∀ (s : State) (vs : List Sample), s.cfg.OK → s.fault = false → vs.length = s.cfg.l →
    ∃ t, execList (sload vs) s = .next t ∧
      t = { s with samp := t.samp, slen := t.slen, phase := 0 } ∧ t.slen.toNat = s.cfg.l ∧
      (∀ j, t.sampAt? j = vs[j]?) ∧ (∀ v, Faults (.spush v) t 3)

/-! ## Correlator -/

/-- R151: the sum over every position of the chip's sign times the sample; with at most 1024 positions it lies within
`2^25` of 0, and 27 bits hold it exactly. -/
def Obligations.CorrelationSumNeverOverflows : Prop :=
  ∀ (row : List Bool) (xs : List Sample), row.length = xs.length → xs.length ≤ 1024 →
    corrSum row xs =
      ((List.range xs.length).map fun j => chipSign row[j]? * sampleValue xs[j]?).sum ∧
    -(2 ^ 25) ≤ corrSum row xs ∧ corrSum row xs ≤ 2 ^ 25 ∧
    (BitVec.ofInt 27 (corrSum row xs)).toInt = corrSum row xs

/-- R152: the quotient truncated toward zero, by its two cases, and the rule's examples. -/
def Obligations.ScoreTruncatesTowardZero : Prop :=
  (∀ (a : Int) (f : Nat), 1 ≤ f →
    (0 ≤ a → tdiv a f = a / (f : Int)) ∧ (a < 0 → tdiv a f = -((-a) / (f : Int)))) ∧
  tdiv 630 10 = 63 ∧ tdiv 639 10 = 63 ∧ tdiv 629 10 = 62 ∧ tdiv (-650) 10 = -65 ∧ tdiv (-649) 10 = -64 ∧
  tdiv (-641) 10 = -64 ∧ tdiv (-9) 10 = 0 ∧ tdiv 0 10 = 0

/-- R154: classifying the truncated quotient is comparing the sum with the scaled thresholds; with the document's values
these are 630 and -650. -/
def Obligations.ClassificationWithoutDivision : Prop :=
  (∀ (c : Cfg) (a : Int), c.OK → classify c (tdiv a c.f) = classOfSum c a) ∧
  (∀ a : Int, (classify Cfg.ref (tdiv a Cfg.ref.f) = 0b11 ↔ 630 ≤ a) ∧
    (classify Cfg.ref (tdiv a Cfg.ref.f) = 0b10 ↔ a ≤ -650))

/-- R156 with R150 to R153: CORR writes ACC with the sum over every position, which never overflows, SCORE with the truncated quotient and CLASS
with its class, and nothing else; its three preconditions fault in the stated order. -/
def Obligations.CorrComputesScore : Prop :=
  (∀ (s : State) (id : BitVec 8), ReadyFor s id → ∃ t, exec (.corr id) s = .next t ∧
    t = { s with acc := t.acc, score := t.score, cls := t.cls } ∧
    t.acc.toInt = ((List.range s.cfg.l).map fun j =>
      chipSign (s.codeAt? id.toNat j) * sampleValue (s.sampAt? j)).sum ∧
    -(2 ^ 25) ≤ t.acc.toInt ∧ t.acc.toInt ≤ 2 ^ 25 ∧
    t.score.toInt = t.acc.toInt.tdiv s.cfg.f ∧
    t.cls = (if t.score.toInt ≥ s.cfg.thrHi then 0b11 else if t.score.toInt ≤ s.cfg.thrLo then 0b10 else 0b00)) ∧
  (∀ (s : State) (id : BitVec 8), s.fault = false →
    (s.cfg.n ≤ id.toNat → Faults (.corr id) s 2) ∧
    (id.toNat < s.cfg.n → s.slen.toNat ≠ s.cfg.l → Faults (.corr id) s 3) ∧
    (id.toNat < s.cfg.n → s.slen.toNat = s.cfg.l → s.cvalid.getLsbD id.toNat = false → Faults (.corr id) s 5))

/-- R157: DECODE is L times the command CORR, the report, and the command ROT. -/
def Obligations.DecodeIsCorrReportRotRepeated : Prop :=
  ∀ (s : State) (id : BitVec 8), ReadyFor s id →
    ∃ t, exec (.decode id) s = .next t ∧ decodeByCommands id s.cfg.l s = .next t

/-- R157 with R99 and R143: DECODE reports, in the order visited, one word for every phase whose sum is determined and none
for the others; it leaves the buffer, PHASE and everything but ACC, SCORE, CLASS and RESOUT as it found them, and the
three registers are those of the last phase; its three preconditions fault in the stated order. -/
def Obligations.DecodeReportsDeterminedPhases : Prop :=
  (∀ (s : State) (id : BitVec 8), ReadyFor s id → ∃ t, exec (.decode id) s = .next t ∧
    t = { s with acc := t.acc, score := t.score, cls := t.cls, resout := t.resout } ∧
    t.resout = s.resout ++ (List.range s.cfg.l).filterMap (fun p =>
      reportOf s.cfg id ((s.phase.toNat + p) % s.cfg.l) (sumAt s id p)) ∧
    t.acc.toInt = sumAt s id (s.cfg.l - 1) ∧
    t.score.toInt = t.acc.toInt.tdiv s.cfg.f ∧ t.cls = classOfSum s.cfg t.acc.toInt) ∧
  (∀ (s : State) (id : BitVec 8), s.fault = false →
    (s.cfg.n ≤ id.toNat → Faults (.decode id) s 2) ∧
    (id.toNat < s.cfg.n → s.slen.toNat ≠ s.cfg.l → Faults (.decode id) s 3) ∧
    (id.toNat < s.cfg.n → s.slen.toNat = s.cfg.l → s.cvalid.getLsbD id.toNat = false → Faults (.decode id) s 5))

/-- R159: DECODE a leaves SAMP, PHASE, CODE, CVALID and the generator as it found them, and the words of a following
DECODE b are those DECODE b alone reports. -/
def Obligations.IdentitiesAreIndependent : Prop :=
  ∀ (s : State) (a b : BitVec 8), ReadyFor s a → ReadyFor s b →
    ∃ t u v words, exec (.decode a) s = .next t ∧ exec (.decode b) t = .next u ∧ exec (.decode b) s = .next v ∧
      (t.samp = s.samp ∧ t.phase = s.phase ∧ t.code = s.code ∧ t.cvalid = s.cvalid ∧ t.ra = s.ra ∧ t.rb = s.rb ∧
        t.id = s.id ∧ t.gvalid = s.gvalid ∧ t.chip = s.chip) ∧
      u.resout = t.resout ++ words ∧ v.resout = s.resout ++ words

/-- R160: a buffer of `K` times the signs of the row (or `-K` times, with `K` negative) has `ACC = K * L`, is bit 1 exactly from
`THR_HI * F` and bit 0 exactly down to `THR_LO * F`, and correlates the same after a full rotation. -/
def Obligations.CorrelationRoundTrip : Prop :=
  ∀ (s : State) (id : BitVec 8) (K : Int), ReadyFor s id → -32767 ≤ K → K ≤ 32767 →
    (∀ j < s.cfg.l, ∃ c x, s.codeAt? id.toNat j = some c ∧ s.sampAt? j = some x ∧
      x.toInt = if c = true then K else -K) →
    ∃ t, exec (.corr id) s = .next t ∧ t.acc.toInt = K * s.cfg.l ∧
      (t.cls = 0b11 ↔ s.cfg.thrHi * s.cfg.f ≤ K * s.cfg.l) ∧
      (t.cls = 0b10 ↔ K * s.cfg.l ≤ s.cfg.thrLo * s.cfg.f) ∧
      execList (List.replicate s.cfg.l .rot ++ [.corr id]) s = .next t

/-- RUN (R98), the document's whole batch run (R2): from any state that is not faulted, it completes without a fault with
the samples as the buffer, each row the chips its identity generates from the all-ones state, PHASE 0, no chip and no
read-back word emitted, and one result word for every identity and phase whose sum is determined: identities ascending,
phases ascending within each, none left out and none added. -/
def Obligations.BatchRunReportsEveryDeterminedPhase : Prop :=
  ∀ (s : State) (vs : List Sample), s.Inv → s.fault = false → vs.length = s.cfg.l →
    ∃ t, execList (runBatch s.cfg vs) s = .next t ∧ t.fault = false ∧ t.phase = 0 ∧
      t.chipout = s.chipout ∧ t.rdout = s.rdout ∧ (∀ j, t.sampAt? j = vs[j]?) ∧
      (∀ k < s.cfg.n, ∃ u row,
        execList (.ginit (BitVec.ofNat 8 k) :: List.replicate s.cfg.l .gstep) s = .next u ∧
        u.chipout = s.chipout ++ row ∧ ∀ j, t.codeAt? k j = row[j]?) ∧
      t.resout = s.resout ++ (List.range s.cfg.n).flatMap fun k =>
        (List.range s.cfg.l).filterMap fun p =>
          reportOf s.cfg (BitVec.ofNat 8 k) p (sumAt t (BitVec.ofNat 8 k) p)

/-! ## System commands -/

/-- R170: NOP changes no state and emits nothing, in either value of FAULT. -/
def Obligations.NopChangesNothing : Prop :=
  ∀ s : State, exec .nop s = .next s

/-- R171 with R35 and R36: RDREG of a register that exists emits exactly its word and changes nothing, in either value of
FAULT; the word of RDREG of a reserved number emits nothing, and faults with ILLEGAL_CMD when FAULT = 0. -/
def Obligations.RdregEmitsSelectedRegister : Prop :=
  (∀ (s : State) (r : BitVec 8), legalRegNum r = true → s.cfg.OK →
    ∃ v, RegWordIs s r v ∧ exec (.rdreg r) s = .next { s with rdout := s.rdout ++ [v] }) ∧
  (∀ (s : State) (r : BitVec 8) (rest : List PortEvent), legalRegNum r = false →
    s.port = .command (0x010000#24 ++ r) :: rest →
    (s.fault = false →
      step s = .next { s with port := rest, fault := true, cause := 1, fcmd := 0x010000#24 ++ r }) ∧
    (s.fault = true → step s = .next { s with port := rest }))

/-! ## The whole machine -/

/-- No step changes the configuration, the tap table in it included, and every channel only grows, at its end
(R7, R28, R39, R211). -/
def Obligations.ConfigFixedAndChannelsGrow : Prop :=
  ∀ s t : State, step s = .next t →
    t.cfg = s.cfg ∧ s.chipout <+: t.chipout ∧ s.resout <+: t.resout ∧ s.rdout <+: t.rdout

/-- The "written by" column of R20 and the channel owners of R39: what a command that is not named there leaves as it is,
when it does not fault. One writer is added to that column: SCLR writes SAMP, because the model drops the elements that
R140 says count as unwritten, which is the model's choice (log entry 5). -/
def Obligations.StateWrittenOnlyByItsCommands : Prop :=
  ∀ (i : Instr) (s t : State), i ≠ .srst → exec i s = .next t →
    ((∀ id, i ≠ .ginit id) → i ≠ .gstep → (∀ n, i ≠ .ggen n) → (∀ id, i ≠ .gmat id) → t.ra = s.ra ∧ t.rb = s.rb) ∧
    ((∀ id, i ≠ .ginit id) → (∀ id, i ≠ .gmat id) → t.id = s.id ∧ t.gvalid = s.gvalid) ∧
    (i ≠ .gstep → (∀ n, i ≠ .ggen n) → (∀ id, i ≠ .gmat id) → t.chip = s.chip) ∧
    ((∀ id, i ≠ .gmat id) → t.code = s.code ∧ t.cvalid = s.cvalid) ∧
    (i ≠ .sclr → (∀ v, i ≠ .spush v) → i ≠ .rot → (∀ id, i ≠ .decode id) → t.samp = s.samp) ∧
    (i ≠ .sclr → (∀ v, i ≠ .spush v) → t.slen = s.slen) ∧
    (i ≠ .sclr → i ≠ .rot → (∀ id, i ≠ .decode id) → t.phase = s.phase) ∧
    ((∀ id, i ≠ .corr id) → (∀ id, i ≠ .decode id) → t.acc = s.acc ∧ t.score = s.score ∧ t.cls = s.cls) ∧
    (i ≠ .gstep → (∀ n, i ≠ .ggen n) → t.chipout = s.chipout) ∧
    ((∀ id, i ≠ .decode id) → t.resout = s.resout) ∧
    ((∀ r, i ≠ .rdreg r) → t.rdout = s.rdout) ∧
    t.cfg = s.cfg ∧ t.port = s.port

/-- No command reads a channel (R39): with other histories in the channels a command does the same and emits the same. -/
def Obligations.CommandsDoNotReadChannels : Prop :=
  ∀ (i : Instr) (s t : State) (cs : List Bool) (rs ds : List Word), exec i s = .next t →
    ∃ a b d, t.chipout = s.chipout ++ a ∧ t.resout = s.resout ++ b ∧ t.rdout = s.rdout ++ d ∧
      exec i { s with chipout := cs, resout := rs, rdout := ds } =
        .next { t with chipout := cs ++ a, resout := rs ++ b, rdout := ds ++ d }
end

