-- ==== Sys2Proof/Laws/State.lean ====
section
/-!
SUPPORT. One lemma per field per named update of the state, true by definition, so that no later proof unfolds
an update.
-/

namespace Sys2Proof.Machine

variable (s : State)

/-! ## enterFault -/

@[simp] theorem enterFault_cfg (x : Cause) (w : Word) : (s.enterFault x w).cfg = s.cfg := rfl
@[simp] theorem enterFault_ra (x : Cause) (w : Word) : (s.enterFault x w).ra = s.ra := rfl
@[simp] theorem enterFault_rb (x : Cause) (w : Word) : (s.enterFault x w).rb = s.rb := rfl
@[simp] theorem enterFault_id (x : Cause) (w : Word) : (s.enterFault x w).id = s.id := rfl
@[simp] theorem enterFault_gvalid (x : Cause) (w : Word) : (s.enterFault x w).gvalid = s.gvalid := rfl
@[simp] theorem enterFault_chip (x : Cause) (w : Word) : (s.enterFault x w).chip = s.chip := rfl
@[simp] theorem enterFault_code (x : Cause) (w : Word) : (s.enterFault x w).code = s.code := rfl
@[simp] theorem enterFault_cvalid (x : Cause) (w : Word) : (s.enterFault x w).cvalid = s.cvalid := rfl
@[simp] theorem enterFault_samp (x : Cause) (w : Word) : (s.enterFault x w).samp = s.samp := rfl
@[simp] theorem enterFault_slen (x : Cause) (w : Word) : (s.enterFault x w).slen = s.slen := rfl
@[simp] theorem enterFault_phase (x : Cause) (w : Word) : (s.enterFault x w).phase = s.phase := rfl
@[simp] theorem enterFault_acc (x : Cause) (w : Word) : (s.enterFault x w).acc = s.acc := rfl
@[simp] theorem enterFault_score (x : Cause) (w : Word) : (s.enterFault x w).score = s.score := rfl
@[simp] theorem enterFault_cls (x : Cause) (w : Word) : (s.enterFault x w).cls = s.cls := rfl
@[simp] theorem enterFault_fault (x : Cause) (w : Word) : (s.enterFault x w).fault = true := rfl
@[simp] theorem enterFault_cause (x : Cause) (w : Word) : (s.enterFault x w).cause = x.code := rfl
@[simp] theorem enterFault_fcmd (x : Cause) (w : Word) : (s.enterFault x w).fcmd = w := rfl
@[simp] theorem enterFault_chipout (x : Cause) (w : Word) : (s.enterFault x w).chipout = s.chipout := rfl
@[simp] theorem enterFault_resout (x : Cause) (w : Word) : (s.enterFault x w).resout = s.resout := rfl
@[simp] theorem enterFault_rdout (x : Cause) (w : Word) : (s.enterFault x w).rdout = s.rdout := rfl
@[simp] theorem enterFault_port (x : Cause) (w : Word) : (s.enterFault x w).port = s.port := rfl

/-! ## toReset -/

@[simp] theorem toReset_cfg : (s.toReset).cfg = s.cfg := rfl
@[simp] theorem toReset_ra : (s.toReset).ra = 0x3FF := rfl
@[simp] theorem toReset_rb : (s.toReset).rb = 0x3FF := rfl
@[simp] theorem toReset_id : (s.toReset).id = 0 := rfl
@[simp] theorem toReset_gvalid : (s.toReset).gvalid = false := rfl
@[simp] theorem toReset_chip : (s.toReset).chip = false := rfl
@[simp] theorem toReset_code : (s.toReset).code = [] := rfl
@[simp] theorem toReset_cvalid : (s.toReset).cvalid = 0 := rfl
@[simp] theorem toReset_samp : (s.toReset).samp = [] := rfl
@[simp] theorem toReset_slen : (s.toReset).slen = 0 := rfl
@[simp] theorem toReset_phase : (s.toReset).phase = 0 := rfl
@[simp] theorem toReset_acc : (s.toReset).acc = 0 := rfl
@[simp] theorem toReset_score : (s.toReset).score = 0 := rfl
@[simp] theorem toReset_cls : (s.toReset).cls = 0 := rfl
@[simp] theorem toReset_fault : (s.toReset).fault = false := rfl
@[simp] theorem toReset_cause : (s.toReset).cause = 0 := rfl
@[simp] theorem toReset_fcmd : (s.toReset).fcmd = 0 := rfl
@[simp] theorem toReset_chipout : (s.toReset).chipout = s.chipout := rfl
@[simp] theorem toReset_resout : (s.toReset).resout = s.resout := rfl
@[simp] theorem toReset_rdout : (s.toReset).rdout = s.rdout := rfl
@[simp] theorem toReset_port : (s.toReset).port = s.port := rfl

/-! ## emitChips -/

@[simp] theorem emitChips_cfg (cs : List Bool) : (s.emitChips cs).cfg = s.cfg := rfl
@[simp] theorem emitChips_ra (cs : List Bool) : (s.emitChips cs).ra = s.ra := rfl
@[simp] theorem emitChips_rb (cs : List Bool) : (s.emitChips cs).rb = s.rb := rfl
@[simp] theorem emitChips_id (cs : List Bool) : (s.emitChips cs).id = s.id := rfl
@[simp] theorem emitChips_gvalid (cs : List Bool) : (s.emitChips cs).gvalid = s.gvalid := rfl
@[simp] theorem emitChips_chip (cs : List Bool) : (s.emitChips cs).chip = s.chip := rfl
@[simp] theorem emitChips_code (cs : List Bool) : (s.emitChips cs).code = s.code := rfl
@[simp] theorem emitChips_cvalid (cs : List Bool) : (s.emitChips cs).cvalid = s.cvalid := rfl
@[simp] theorem emitChips_samp (cs : List Bool) : (s.emitChips cs).samp = s.samp := rfl
@[simp] theorem emitChips_slen (cs : List Bool) : (s.emitChips cs).slen = s.slen := rfl
@[simp] theorem emitChips_phase (cs : List Bool) : (s.emitChips cs).phase = s.phase := rfl
@[simp] theorem emitChips_acc (cs : List Bool) : (s.emitChips cs).acc = s.acc := rfl
@[simp] theorem emitChips_score (cs : List Bool) : (s.emitChips cs).score = s.score := rfl
@[simp] theorem emitChips_cls (cs : List Bool) : (s.emitChips cs).cls = s.cls := rfl
@[simp] theorem emitChips_fault (cs : List Bool) : (s.emitChips cs).fault = s.fault := rfl
@[simp] theorem emitChips_cause (cs : List Bool) : (s.emitChips cs).cause = s.cause := rfl
@[simp] theorem emitChips_fcmd (cs : List Bool) : (s.emitChips cs).fcmd = s.fcmd := rfl
@[simp] theorem emitChips_chipout (cs : List Bool) : (s.emitChips cs).chipout = s.chipout ++ cs := rfl
@[simp] theorem emitChips_resout (cs : List Bool) : (s.emitChips cs).resout = s.resout := rfl
@[simp] theorem emitChips_rdout (cs : List Bool) : (s.emitChips cs).rdout = s.rdout := rfl
@[simp] theorem emitChips_port (cs : List Bool) : (s.emitChips cs).port = s.port := rfl

/-! ## emitResult -/

@[simp] theorem emitResult_cfg (w : Word) : (s.emitResult w).cfg = s.cfg := rfl
@[simp] theorem emitResult_ra (w : Word) : (s.emitResult w).ra = s.ra := rfl
@[simp] theorem emitResult_rb (w : Word) : (s.emitResult w).rb = s.rb := rfl
@[simp] theorem emitResult_id (w : Word) : (s.emitResult w).id = s.id := rfl
@[simp] theorem emitResult_gvalid (w : Word) : (s.emitResult w).gvalid = s.gvalid := rfl
@[simp] theorem emitResult_chip (w : Word) : (s.emitResult w).chip = s.chip := rfl
@[simp] theorem emitResult_code (w : Word) : (s.emitResult w).code = s.code := rfl
@[simp] theorem emitResult_cvalid (w : Word) : (s.emitResult w).cvalid = s.cvalid := rfl
@[simp] theorem emitResult_samp (w : Word) : (s.emitResult w).samp = s.samp := rfl
@[simp] theorem emitResult_slen (w : Word) : (s.emitResult w).slen = s.slen := rfl
@[simp] theorem emitResult_phase (w : Word) : (s.emitResult w).phase = s.phase := rfl
@[simp] theorem emitResult_acc (w : Word) : (s.emitResult w).acc = s.acc := rfl
@[simp] theorem emitResult_score (w : Word) : (s.emitResult w).score = s.score := rfl
@[simp] theorem emitResult_cls (w : Word) : (s.emitResult w).cls = s.cls := rfl
@[simp] theorem emitResult_fault (w : Word) : (s.emitResult w).fault = s.fault := rfl
@[simp] theorem emitResult_cause (w : Word) : (s.emitResult w).cause = s.cause := rfl
@[simp] theorem emitResult_fcmd (w : Word) : (s.emitResult w).fcmd = s.fcmd := rfl
@[simp] theorem emitResult_chipout (w : Word) : (s.emitResult w).chipout = s.chipout := rfl
@[simp] theorem emitResult_resout (w : Word) : (s.emitResult w).resout = s.resout ++ [w] := rfl
@[simp] theorem emitResult_rdout (w : Word) : (s.emitResult w).rdout = s.rdout := rfl
@[simp] theorem emitResult_port (w : Word) : (s.emitResult w).port = s.port := rfl

/-! ## emitRead -/

@[simp] theorem emitRead_cfg (w : Word) : (s.emitRead w).cfg = s.cfg := rfl
@[simp] theorem emitRead_ra (w : Word) : (s.emitRead w).ra = s.ra := rfl
@[simp] theorem emitRead_rb (w : Word) : (s.emitRead w).rb = s.rb := rfl
@[simp] theorem emitRead_id (w : Word) : (s.emitRead w).id = s.id := rfl
@[simp] theorem emitRead_gvalid (w : Word) : (s.emitRead w).gvalid = s.gvalid := rfl
@[simp] theorem emitRead_chip (w : Word) : (s.emitRead w).chip = s.chip := rfl
@[simp] theorem emitRead_code (w : Word) : (s.emitRead w).code = s.code := rfl
@[simp] theorem emitRead_cvalid (w : Word) : (s.emitRead w).cvalid = s.cvalid := rfl
@[simp] theorem emitRead_samp (w : Word) : (s.emitRead w).samp = s.samp := rfl
@[simp] theorem emitRead_slen (w : Word) : (s.emitRead w).slen = s.slen := rfl
@[simp] theorem emitRead_phase (w : Word) : (s.emitRead w).phase = s.phase := rfl
@[simp] theorem emitRead_acc (w : Word) : (s.emitRead w).acc = s.acc := rfl
@[simp] theorem emitRead_score (w : Word) : (s.emitRead w).score = s.score := rfl
@[simp] theorem emitRead_cls (w : Word) : (s.emitRead w).cls = s.cls := rfl
@[simp] theorem emitRead_fault (w : Word) : (s.emitRead w).fault = s.fault := rfl
@[simp] theorem emitRead_cause (w : Word) : (s.emitRead w).cause = s.cause := rfl
@[simp] theorem emitRead_fcmd (w : Word) : (s.emitRead w).fcmd = s.fcmd := rfl
@[simp] theorem emitRead_chipout (w : Word) : (s.emitRead w).chipout = s.chipout := rfl
@[simp] theorem emitRead_resout (w : Word) : (s.emitRead w).resout = s.resout := rfl
@[simp] theorem emitRead_rdout (w : Word) : (s.emitRead w).rdout = s.rdout ++ [w] := rfl
@[simp] theorem emitRead_port (w : Word) : (s.emitRead w).port = s.port := rfl

/-! ## setGen -/

@[simp] theorem setGen_cfg (g : Gen) : (s.setGen g).cfg = s.cfg := rfl
@[simp] theorem setGen_ra (g : Gen) : (s.setGen g).ra = g.ra := rfl
@[simp] theorem setGen_rb (g : Gen) : (s.setGen g).rb = g.rb := rfl
@[simp] theorem setGen_id (g : Gen) : (s.setGen g).id = s.id := rfl
@[simp] theorem setGen_gvalid (g : Gen) : (s.setGen g).gvalid = s.gvalid := rfl
@[simp] theorem setGen_chip (g : Gen) : (s.setGen g).chip = g.chip := rfl
@[simp] theorem setGen_code (g : Gen) : (s.setGen g).code = s.code := rfl
@[simp] theorem setGen_cvalid (g : Gen) : (s.setGen g).cvalid = s.cvalid := rfl
@[simp] theorem setGen_samp (g : Gen) : (s.setGen g).samp = s.samp := rfl
@[simp] theorem setGen_slen (g : Gen) : (s.setGen g).slen = s.slen := rfl
@[simp] theorem setGen_phase (g : Gen) : (s.setGen g).phase = s.phase := rfl
@[simp] theorem setGen_acc (g : Gen) : (s.setGen g).acc = s.acc := rfl
@[simp] theorem setGen_score (g : Gen) : (s.setGen g).score = s.score := rfl
@[simp] theorem setGen_cls (g : Gen) : (s.setGen g).cls = s.cls := rfl
@[simp] theorem setGen_fault (g : Gen) : (s.setGen g).fault = s.fault := rfl
@[simp] theorem setGen_cause (g : Gen) : (s.setGen g).cause = s.cause := rfl
@[simp] theorem setGen_fcmd (g : Gen) : (s.setGen g).fcmd = s.fcmd := rfl
@[simp] theorem setGen_chipout (g : Gen) : (s.setGen g).chipout = s.chipout := rfl
@[simp] theorem setGen_resout (g : Gen) : (s.setGen g).resout = s.resout := rfl
@[simp] theorem setGen_rdout (g : Gen) : (s.setGen g).rdout = s.rdout := rfl
@[simp] theorem setGen_port (g : Gen) : (s.setGen g).port = s.port := rfl

/-! ## bindGen -/

@[simp] theorem bindGen_cfg (k : BitVec 8) : (s.bindGen k).cfg = s.cfg := rfl
@[simp] theorem bindGen_ra (k : BitVec 8) : (s.bindGen k).ra = 0x3FF := rfl
@[simp] theorem bindGen_rb (k : BitVec 8) : (s.bindGen k).rb = 0x3FF := rfl
@[simp] theorem bindGen_id (k : BitVec 8) : (s.bindGen k).id = k := rfl
@[simp] theorem bindGen_gvalid (k : BitVec 8) : (s.bindGen k).gvalid = true := rfl
@[simp] theorem bindGen_chip (k : BitVec 8) : (s.bindGen k).chip = s.chip := rfl
@[simp] theorem bindGen_code (k : BitVec 8) : (s.bindGen k).code = s.code := rfl
@[simp] theorem bindGen_cvalid (k : BitVec 8) : (s.bindGen k).cvalid = s.cvalid := rfl
@[simp] theorem bindGen_samp (k : BitVec 8) : (s.bindGen k).samp = s.samp := rfl
@[simp] theorem bindGen_slen (k : BitVec 8) : (s.bindGen k).slen = s.slen := rfl
@[simp] theorem bindGen_phase (k : BitVec 8) : (s.bindGen k).phase = s.phase := rfl
@[simp] theorem bindGen_acc (k : BitVec 8) : (s.bindGen k).acc = s.acc := rfl
@[simp] theorem bindGen_score (k : BitVec 8) : (s.bindGen k).score = s.score := rfl
@[simp] theorem bindGen_cls (k : BitVec 8) : (s.bindGen k).cls = s.cls := rfl
@[simp] theorem bindGen_fault (k : BitVec 8) : (s.bindGen k).fault = s.fault := rfl
@[simp] theorem bindGen_cause (k : BitVec 8) : (s.bindGen k).cause = s.cause := rfl
@[simp] theorem bindGen_fcmd (k : BitVec 8) : (s.bindGen k).fcmd = s.fcmd := rfl
@[simp] theorem bindGen_chipout (k : BitVec 8) : (s.bindGen k).chipout = s.chipout := rfl
@[simp] theorem bindGen_resout (k : BitVec 8) : (s.bindGen k).resout = s.resout := rfl
@[simp] theorem bindGen_rdout (k : BitVec 8) : (s.bindGen k).rdout = s.rdout := rfl
@[simp] theorem bindGen_port (k : BitVec 8) : (s.bindGen k).port = s.port := rfl

/-! ## storeRow -/

@[simp] theorem storeRow_cfg (k : BitVec 8) (row : List Bool) : (s.storeRow k row).cfg = s.cfg := rfl
@[simp] theorem storeRow_ra (k : BitVec 8) (row : List Bool) : (s.storeRow k row).ra = s.ra := rfl
@[simp] theorem storeRow_rb (k : BitVec 8) (row : List Bool) : (s.storeRow k row).rb = s.rb := rfl
@[simp] theorem storeRow_id (k : BitVec 8) (row : List Bool) : (s.storeRow k row).id = s.id := rfl
@[simp] theorem storeRow_gvalid (k : BitVec 8) (row : List Bool) : (s.storeRow k row).gvalid = s.gvalid := rfl
@[simp] theorem storeRow_chip (k : BitVec 8) (row : List Bool) : (s.storeRow k row).chip = s.chip := rfl
@[simp] theorem storeRow_code (k : BitVec 8) (row : List Bool) : (s.storeRow k row).code = s.code.write k.toNat row := rfl
@[simp] theorem storeRow_cvalid (k : BitVec 8) (row : List Bool) : (s.storeRow k row).cvalid = setValid s.cvalid k := rfl
@[simp] theorem storeRow_samp (k : BitVec 8) (row : List Bool) : (s.storeRow k row).samp = s.samp := rfl
@[simp] theorem storeRow_slen (k : BitVec 8) (row : List Bool) : (s.storeRow k row).slen = s.slen := rfl
@[simp] theorem storeRow_phase (k : BitVec 8) (row : List Bool) : (s.storeRow k row).phase = s.phase := rfl
@[simp] theorem storeRow_acc (k : BitVec 8) (row : List Bool) : (s.storeRow k row).acc = s.acc := rfl
@[simp] theorem storeRow_score (k : BitVec 8) (row : List Bool) : (s.storeRow k row).score = s.score := rfl
@[simp] theorem storeRow_cls (k : BitVec 8) (row : List Bool) : (s.storeRow k row).cls = s.cls := rfl
@[simp] theorem storeRow_fault (k : BitVec 8) (row : List Bool) : (s.storeRow k row).fault = s.fault := rfl
@[simp] theorem storeRow_cause (k : BitVec 8) (row : List Bool) : (s.storeRow k row).cause = s.cause := rfl
@[simp] theorem storeRow_fcmd (k : BitVec 8) (row : List Bool) : (s.storeRow k row).fcmd = s.fcmd := rfl
@[simp] theorem storeRow_chipout (k : BitVec 8) (row : List Bool) : (s.storeRow k row).chipout = s.chipout := rfl
@[simp] theorem storeRow_resout (k : BitVec 8) (row : List Bool) : (s.storeRow k row).resout = s.resout := rfl
@[simp] theorem storeRow_rdout (k : BitVec 8) (row : List Bool) : (s.storeRow k row).rdout = s.rdout := rfl
@[simp] theorem storeRow_port (k : BitVec 8) (row : List Bool) : (s.storeRow k row).port = s.port := rfl

/-! ## clearBuffer -/

@[simp] theorem clearBuffer_cfg : (s.clearBuffer).cfg = s.cfg := rfl
@[simp] theorem clearBuffer_ra : (s.clearBuffer).ra = s.ra := rfl
@[simp] theorem clearBuffer_rb : (s.clearBuffer).rb = s.rb := rfl
@[simp] theorem clearBuffer_id : (s.clearBuffer).id = s.id := rfl
@[simp] theorem clearBuffer_gvalid : (s.clearBuffer).gvalid = s.gvalid := rfl
@[simp] theorem clearBuffer_chip : (s.clearBuffer).chip = s.chip := rfl
@[simp] theorem clearBuffer_code : (s.clearBuffer).code = s.code := rfl
@[simp] theorem clearBuffer_cvalid : (s.clearBuffer).cvalid = s.cvalid := rfl
@[simp] theorem clearBuffer_samp : (s.clearBuffer).samp = [] := rfl
@[simp] theorem clearBuffer_slen : (s.clearBuffer).slen = 0 := rfl
@[simp] theorem clearBuffer_phase : (s.clearBuffer).phase = 0 := rfl
@[simp] theorem clearBuffer_acc : (s.clearBuffer).acc = s.acc := rfl
@[simp] theorem clearBuffer_score : (s.clearBuffer).score = s.score := rfl
@[simp] theorem clearBuffer_cls : (s.clearBuffer).cls = s.cls := rfl
@[simp] theorem clearBuffer_fault : (s.clearBuffer).fault = s.fault := rfl
@[simp] theorem clearBuffer_cause : (s.clearBuffer).cause = s.cause := rfl
@[simp] theorem clearBuffer_fcmd : (s.clearBuffer).fcmd = s.fcmd := rfl
@[simp] theorem clearBuffer_chipout : (s.clearBuffer).chipout = s.chipout := rfl
@[simp] theorem clearBuffer_resout : (s.clearBuffer).resout = s.resout := rfl
@[simp] theorem clearBuffer_rdout : (s.clearBuffer).rdout = s.rdout := rfl
@[simp] theorem clearBuffer_port : (s.clearBuffer).port = s.port := rfl

/-! ## pushSample -/

@[simp] theorem pushSample_cfg (v : Sample) : (s.pushSample v).cfg = s.cfg := rfl
@[simp] theorem pushSample_ra (v : Sample) : (s.pushSample v).ra = s.ra := rfl
@[simp] theorem pushSample_rb (v : Sample) : (s.pushSample v).rb = s.rb := rfl
@[simp] theorem pushSample_id (v : Sample) : (s.pushSample v).id = s.id := rfl
@[simp] theorem pushSample_gvalid (v : Sample) : (s.pushSample v).gvalid = s.gvalid := rfl
@[simp] theorem pushSample_chip (v : Sample) : (s.pushSample v).chip = s.chip := rfl
@[simp] theorem pushSample_code (v : Sample) : (s.pushSample v).code = s.code := rfl
@[simp] theorem pushSample_cvalid (v : Sample) : (s.pushSample v).cvalid = s.cvalid := rfl
@[simp] theorem pushSample_samp (v : Sample) : (s.pushSample v).samp = s.samp.write s.slen.toNat v := rfl
@[simp] theorem pushSample_slen (v : Sample) : (s.pushSample v).slen = s.slen + 1 := rfl
@[simp] theorem pushSample_phase (v : Sample) : (s.pushSample v).phase = s.phase := rfl
@[simp] theorem pushSample_acc (v : Sample) : (s.pushSample v).acc = s.acc := rfl
@[simp] theorem pushSample_score (v : Sample) : (s.pushSample v).score = s.score := rfl
@[simp] theorem pushSample_cls (v : Sample) : (s.pushSample v).cls = s.cls := rfl
@[simp] theorem pushSample_fault (v : Sample) : (s.pushSample v).fault = s.fault := rfl
@[simp] theorem pushSample_cause (v : Sample) : (s.pushSample v).cause = s.cause := rfl
@[simp] theorem pushSample_fcmd (v : Sample) : (s.pushSample v).fcmd = s.fcmd := rfl
@[simp] theorem pushSample_chipout (v : Sample) : (s.pushSample v).chipout = s.chipout := rfl
@[simp] theorem pushSample_resout (v : Sample) : (s.pushSample v).resout = s.resout := rfl
@[simp] theorem pushSample_rdout (v : Sample) : (s.pushSample v).rdout = s.rdout := rfl
@[simp] theorem pushSample_port (v : Sample) : (s.pushSample v).port = s.port := rfl

/-! ## rotated -/

@[simp] theorem rotated_cfg (xs : List Sample) : (s.rotated xs).cfg = s.cfg := rfl
@[simp] theorem rotated_ra (xs : List Sample) : (s.rotated xs).ra = s.ra := rfl
@[simp] theorem rotated_rb (xs : List Sample) : (s.rotated xs).rb = s.rb := rfl
@[simp] theorem rotated_id (xs : List Sample) : (s.rotated xs).id = s.id := rfl
@[simp] theorem rotated_gvalid (xs : List Sample) : (s.rotated xs).gvalid = s.gvalid := rfl
@[simp] theorem rotated_chip (xs : List Sample) : (s.rotated xs).chip = s.chip := rfl
@[simp] theorem rotated_code (xs : List Sample) : (s.rotated xs).code = s.code := rfl
@[simp] theorem rotated_cvalid (xs : List Sample) : (s.rotated xs).cvalid = s.cvalid := rfl
@[simp] theorem rotated_samp (xs : List Sample) : (s.rotated xs).samp = Memory.ofList (rotateList xs) := rfl
@[simp] theorem rotated_slen (xs : List Sample) : (s.rotated xs).slen = s.slen := rfl
@[simp] theorem rotated_phase (xs : List Sample) : (s.rotated xs).phase = nextPhase s.cfg s.phase := rfl
@[simp] theorem rotated_acc (xs : List Sample) : (s.rotated xs).acc = s.acc := rfl
@[simp] theorem rotated_score (xs : List Sample) : (s.rotated xs).score = s.score := rfl
@[simp] theorem rotated_cls (xs : List Sample) : (s.rotated xs).cls = s.cls := rfl
@[simp] theorem rotated_fault (xs : List Sample) : (s.rotated xs).fault = s.fault := rfl
@[simp] theorem rotated_cause (xs : List Sample) : (s.rotated xs).cause = s.cause := rfl
@[simp] theorem rotated_fcmd (xs : List Sample) : (s.rotated xs).fcmd = s.fcmd := rfl
@[simp] theorem rotated_chipout (xs : List Sample) : (s.rotated xs).chipout = s.chipout := rfl
@[simp] theorem rotated_resout (xs : List Sample) : (s.rotated xs).resout = s.resout := rfl
@[simp] theorem rotated_rdout (xs : List Sample) : (s.rotated xs).rdout = s.rdout := rfl
@[simp] theorem rotated_port (xs : List Sample) : (s.rotated xs).port = s.port := rfl

/-! ## setCorr -/

@[simp] theorem setCorr_cfg (a : Int) : (s.setCorr a).cfg = s.cfg := rfl
@[simp] theorem setCorr_ra (a : Int) : (s.setCorr a).ra = s.ra := rfl
@[simp] theorem setCorr_rb (a : Int) : (s.setCorr a).rb = s.rb := rfl
@[simp] theorem setCorr_id (a : Int) : (s.setCorr a).id = s.id := rfl
@[simp] theorem setCorr_gvalid (a : Int) : (s.setCorr a).gvalid = s.gvalid := rfl
@[simp] theorem setCorr_chip (a : Int) : (s.setCorr a).chip = s.chip := rfl
@[simp] theorem setCorr_code (a : Int) : (s.setCorr a).code = s.code := rfl
@[simp] theorem setCorr_cvalid (a : Int) : (s.setCorr a).cvalid = s.cvalid := rfl
@[simp] theorem setCorr_samp (a : Int) : (s.setCorr a).samp = s.samp := rfl
@[simp] theorem setCorr_slen (a : Int) : (s.setCorr a).slen = s.slen := rfl
@[simp] theorem setCorr_phase (a : Int) : (s.setCorr a).phase = s.phase := rfl
@[simp] theorem setCorr_acc (a : Int) : (s.setCorr a).acc = BitVec.ofInt 27 a := rfl
@[simp] theorem setCorr_score (a : Int) : (s.setCorr a).score = BitVec.ofInt 27 (tdiv a s.cfg.f) := rfl
@[simp] theorem setCorr_cls (a : Int) : (s.setCorr a).cls = classify s.cfg (tdiv a s.cfg.f) := rfl
@[simp] theorem setCorr_fault (a : Int) : (s.setCorr a).fault = s.fault := rfl
@[simp] theorem setCorr_cause (a : Int) : (s.setCorr a).cause = s.cause := rfl
@[simp] theorem setCorr_fcmd (a : Int) : (s.setCorr a).fcmd = s.fcmd := rfl
@[simp] theorem setCorr_chipout (a : Int) : (s.setCorr a).chipout = s.chipout := rfl
@[simp] theorem setCorr_resout (a : Int) : (s.setCorr a).resout = s.resout := rfl
@[simp] theorem setCorr_rdout (a : Int) : (s.setCorr a).rdout = s.rdout := rfl
@[simp] theorem setCorr_port (a : Int) : (s.setCorr a).port = s.port := rfl

/-! ## gen -/

@[simp] theorem gen_ra : s.gen.ra = s.ra := rfl
@[simp] theorem gen_rb : s.gen.rb = s.rb := rfl
@[simp] theorem gen_chip : s.gen.chip = s.chip := rfl

end Sys2Proof.Machine
end

