-- ==== Sys2Proof/Laws/Ops.lean ====
section
/-!
SUPPORT. Everything a shared operation can do, said once: dropping, a precondition, a body that may meet an
element without a value, and the answers of the twelve meanings in terms of them.
-/

namespace Sys2Proof.Machine

variable {s t : State} {body : Result} {c : Bool} {x : Cause} {w : Word}

theorem unlessFaulted_eq_next :
    unlessFaulted s body = .next t ↔ (s.fault = true ∧ t = s) ∨ (s.fault = false ∧ body = .next t) := by
  simp only [unlessFaulted]
  cases s.fault <;> simp [eq_comm]

theorem unlessFaulted_of_fault (h : s.fault = true) : unlessFaulted s body = .next s := by
  simp [unlessFaulted, h]

@[simp] theorem unlessFaulted_of_clear (h : s.fault = false) : unlessFaulted s body = body := by
  simp [unlessFaulted, h]

theorem require_eq_next :
    require c x w s body = .next t ↔ (c = true ∧ body = .next t) ∨ (c = false ∧ t = s.enterFault x w) := by
  cases c <;> simp [require, raiseFault, eq_comm]

@[simp] theorem require_true : require true x w s body = body := rfl

@[simp] theorem require_false : require false x w s body = .next (s.enterFault x w) := rfl

@[simp] theorem finish_eq_next {r : Except Fault State} : finish r = .next t ↔ r = .ok t := by
  cases r <;> simp [finish]

@[simp] theorem finish_ok : finish (.ok s) = .next s := rfl

/-- No meaning and no step refuses: what does not fault in the model's sense answers a next state. -/
theorem finish_cases (r : Except Fault State) : (∃ t, finish r = .next t) ∨ ∃ e, finish r = .fault e := by
  cases r <;> simp [finish]

theorem illegalWord_eq_next :
    illegalWord w s = .next t ↔
      (s.fault = true ∧ t = s) ∨ (s.fault = false ∧ t = s.enterFault .illegalCmd w) := by
  simp [illegalWord, unlessFaulted_eq_next, raiseFault, @eq_comm _ t]

/-- A cause code is `1 .. 5` (R181). -/
theorem Cause.code_range (x : Cause) : 1 ≤ x.code.toNat ∧ x.code.toNat ≤ 5 := by
  cases x <;> decide

theorem enterFault_eq (s : State) (x : Cause) (w : Word) :
    s.enterFault x w = { s with fault := true, cause := x.code, fcmd := w } := rfl

end Sys2Proof.Machine
end

