-- ==== Sys2Proof/Laws/Generator.lean ====
section
/-!
SUPPORT. The laws of the generator: bits of a shifted register, runs of the step function, and what the bodies of
GSTEP, GGEN and GMAT do.
-/

namespace Sys2Proof.Machine

/-- A shifted register as a concatenation: the new bit, then the old cells 1 to 9 (R23). -/
theorem shiftIn_eq_append (r : Reg10) (b : Bool) : shiftIn r b = BitVec.ofBool b ++ r.extractLsb' 1 9 := by
  apply BitVec.eq_of_getLsbD_eq
  intro i hi
  simp only [shiftIn, BitVec.getLsbD_append, BitVec.getLsbD_extractLsb', BitVec.getLsbD_or, BitVec.getLsbD_ushiftRight]
  rcases Nat.lt_or_ge i 9 with h | h
  · have : ∀ i < 9, (512#10).getLsbD i = false := by decide
    cases b <;> simp [h, this i h]
  · obtain rfl : i = 9 := by omega
    cases b <;> simp

theorem getLsbD_shiftIn (r : Reg10) (b : Bool) (i : Nat) (h : i < 10) :
    (shiftIn r b).getLsbD i = if i = 9 then b else r.getLsbD (i + 1) := by
  rw [shiftIn_eq_append, BitVec.getLsbD_append]
  rcases Nat.lt_or_ge i 9 with h9 | h9
  · simp [h9, Nat.ne_of_lt h9, Nat.add_comm]
  · obtain rfl : i = 9 := by omega
    cases b <;> simp

variable {c : Cfg} {t : TapPair}

theorem Gen.run_add (a b : Nat) (g : Gen) :
    Gen.run c t (a + b) g =
      ((Gen.run c t b (Gen.run c t a g).1).1, (Gen.run c t a g).2 ++ (Gen.run c t b (Gen.run c t a g).1).2) := by
  induction a generalizing g with
  | zero => simp [Gen.run]
  | succ a ih => simp [Nat.succ_add, Gen.run, ih]

@[simp] theorem Gen.length_run (n : Nat) (g : Gen) : (Gen.run c t n g).2.length = n := by
  induction n generalizing g with
  | zero => rfl
  | succ n ih => simp [Gen.run, ih]

/-- The registers and the chips of a run do not depend on the last chip before it. -/
theorem Gen.run_chip_irrelevant (n : Nat) (g g' : Gen) (ha : g.ra = g'.ra) (hb : g.rb = g'.rb) :
    (Gen.run c t n g).2 = (Gen.run c t n g').2 ∧
    (Gen.run c t n g).1.ra = (Gen.run c t n g').1.ra ∧ (Gen.run c t n g).1.rb = (Gen.run c t n g').1.rb := by
  cases n with
  | zero => simp [Gen.run, ha, hb]
  | succ n =>
    have : g.advance c t = g'.advance c t := by simp [Gen.advance, ha, hb]
    simp [Gen.run, this]

theorem gstepBody_eq_ok {s u : State} :
    gstepBody s = .ok u ↔ ∃ t, s.tapPair? s.id = some t ∧
      u = (s.setGen (s.gen.advance s.cfg t)).emitChips [(s.gen.advance s.cfg t).chip] := by
  cases h : s.tapPair? s.id <;> simp [gstepBody, h, @eq_comm _ u]

theorem ggenBody_eq_ok {n : Nat} {s u : State} :
    ggenBody n s = .ok u ↔ ∃ t, s.tapPair? s.id = some t ∧
      u = (s.setGen (Gen.run s.cfg t n s.gen).1).emitChips (Gen.run s.cfg t n s.gen).2 := by
  cases h : s.tapPair? s.id <;> simp [ggenBody, h, @eq_comm _ u]

theorem gmatBody_eq_ok {k : BitVec 8} {s u : State} :
    gmatBody k s = .ok u ↔ ∃ t, s.tapPair? k = some t ∧
      u = ((s.bindGen k).setGen (Gen.run s.cfg t s.cfg.l (s.bindGen k).gen).1).storeRow k
        (Gen.run s.cfg t s.cfg.l (s.bindGen k).gen).2 := by
  cases h : s.tapPair? k <;> simp [gmatBody, h, @eq_comm _ u]

/-- One step of a run is GSTEP's body. -/
theorem ggenBody_one (s : State) : ggenBody 1 s = gstepBody s := by
  simp only [ggenBody, gstepBody]
  split <;> simp [Gen.run]

/-- Two runs of GGEN's body are one run of the sum. -/
theorem ggenBody_add {a b : Nat} {s u : State} (h : ggenBody a s = .ok u) : ggenBody (a + b) s = ggenBody b u := by
  obtain ⟨t, ht, rfl⟩ := ggenBody_eq_ok.1 h
  have ht' : ∀ g cs, ((s.setGen g).emitChips cs).tapPair? ((s.setGen g).emitChips cs).id = some t := fun _ _ => ht
  simp only [ggenBody, ht, ht']
  simp [Gen.run_add, State.gen, State.setGen, State.emitChips]

/-- A valid configuration has a tap pair for every identity (R8, R63). -/
theorem tapPair?_of_lt {s : State} (hc : s.cfg.OK) {k : BitVec 8} (hk : k.toNat < s.cfg.n) :
    ∃ t, s.tapPair? k = some t :=
  ⟨s.cfg.taps[k.toNat]'(by rw [hc.taps_length]; exact hk), by simp [State.tapPair?]⟩

/-- The bits of `CVALID` after a row has been made valid. -/
theorem getLsbD_setValid (v : BitVec 256) (k : BitVec 8) (j : Nat) (hj : j < 256) :
    (setValid v k).getLsbD j = (decide (j = k.toNat) || v.getLsbD j) := by
  simp only [setValid, BitVec.getLsbD_or, BitVec.getLsbD_shiftLeft, hj, decide_true, Bool.true_and]
  rcases Nat.lt_trichotomy j k.toNat with h | h | h
  · simp [h, Nat.ne_of_lt h]
  · simp [h]
  · simp [Nat.not_lt_of_gt h, Nat.ne_of_gt h, show j - k.toNat ≠ 0 by omega]

end Sys2Proof.Machine
end

