-- ==== Sys2Proof/Laws/Memory.lean ====
section
/-!
SUPPORT. The laws of a memory space: a read after a write, the canonical form kept by every operation, and what
a space made of a whole list reads as.
-/

namespace Sys2Proof.Machine.Memory

variable {α : Type}

@[simp] theorem read_nil (a : Nat) : read ([] : Memory α) a = none := rfl

theorem read_write_same (m : Memory α) (a : Nat) (x : α) : (m.write a x).read a = some x := by
  induction m with
  | nil => simp [write, read]
  | cons p m ih =>
    obtain ⟨k, v⟩ := p
    simp only [write]
    split
    · simp [read, ih, Nat.ne_of_lt ‹_›]
    · split <;> simp [read]

theorem read_write_other (m : Memory α) (a b : Nat) (x : α) (h : b ≠ a) : (m.write a x).read b = m.read b := by
  induction m with
  | nil => simp [write, read, Ne.symm h]
  | cons p m ih =>
    obtain ⟨k, v⟩ := p
    simp only [write]
    split
    · simp [read, ih]
    · split
      · subst_vars; simp [read, Ne.symm h]
      · simp [read, Ne.symm h]

theorem read_write (m : Memory α) (a b : Nat) (x : α) :
    (m.write a x).read b = if b = a then some x else m.read b := by
  by_cases h : b = a
  · simp [h, read_write_same]
  · simp [h, read_write_other]

/-- The entries of a space after a write are the new one and old ones. -/
theorem mem_write {m : Memory α} {a : Nat} {x : α} {p : Nat × α} (h : p ∈ m.write a x) :
    p = (a, x) ∨ p ∈ m := by
  induction m with
  | nil => simpa [write] using h
  | cons q m ih =>
    obtain ⟨k, v⟩ := q
    simp only [write] at h
    split at h
    · simp only [List.mem_cons] at h ⊢
      rcases h with h | h
      · exact .inr (.inl h)
      · exact (ih h).imp id .inr
    · split at h <;> simp only [List.mem_cons] at h ⊢ <;> tauto

theorem write_wf {m : Memory α} (a : Nat) (x : α) (h : m.wf) : (m.write a x).wf := by
  induction m with
  | nil => simp [write, wf]
  | cons p m ih =>
    obtain ⟨k, v⟩ := p
    simp only [wf, List.map_cons, List.pairwise_cons, List.mem_map] at h
    simp only [write]
    split
    · simp only [wf, List.map_cons, List.pairwise_cons, List.mem_map]
      refine ⟨?_, ih h.2⟩
      rintro b ⟨q, hq, rfl⟩
      rcases mem_write hq with rfl | hq
      · assumption
      · exact h.1 _ ⟨q, hq, rfl⟩
    · split
      · subst_vars; simpa [wf, List.pairwise_cons] using h
      · simp only [wf, List.map_cons, List.pairwise_cons, List.mem_cons, List.mem_map]
        refine ⟨?_, by simpa using h.1, h.2⟩
        rintro b (rfl | ⟨q, hq, rfl⟩)
        · omega
        · have := h.1 _ ⟨q, hq, rfl⟩; omega

@[simp] theorem keys_ofListFrom (i : Nat) (xs : List α) : (ofListFrom i xs).map Prod.fst = List.range' i xs.length := by
  induction xs generalizing i with
  | nil => rfl
  | cons x xs ih => simp [ofListFrom, ih, List.range'_succ]

@[simp] theorem values_ofListFrom (i : Nat) (xs : List α) : (ofListFrom i xs).map Prod.snd = xs := by
  induction xs generalizing i with
  | nil => rfl
  | cons x xs ih => simp [ofListFrom, ih]

@[simp] theorem keys_ofList (xs : List α) : (ofList xs).map Prod.fst = List.range xs.length := by
  rw [ofList, keys_ofListFrom, List.range_eq_range']

theorem ofList_wf (xs : List α) : (ofList xs).wf := by
  rw [wf, keys_ofList]; exact List.pairwise_lt_range

theorem read_ofListFrom (i : Nat) (xs : List α) (j : Nat) :
    (ofListFrom i xs).read j = if i ≤ j then xs[j - i]? else none := by
  induction xs generalizing i with
  | nil => simp [ofListFrom]
  | cons x xs ih =>
    simp only [ofListFrom, read, ih]
    rcases Nat.lt_trichotomy i j with h | h | h
    · have h1 : j - i = j - (i + 1) + 1 := by omega
      simp [Nat.ne_of_lt h, Nat.succ_le_of_lt h, Nat.le_of_lt h, h1]
    · simp [h]
    · simp [Nat.ne_of_gt h, Nat.not_le_of_lt h, show ¬ i + 1 ≤ j by omega]

@[simp] theorem read_ofList (xs : List α) (j : Nat) : (ofList xs).read j = xs[j]? := by
  simp [ofList, read_ofListFrom]

@[simp] theorem row?_ofList (xs : List α) : (ofList xs).row? xs.length = some xs := by
  rw [row?, keys_ofList, if_pos rfl, ofList, values_ofListFrom]

/-- A space whose entries are exactly `0 .. n-1` is the space of a list. -/
theorem eq_ofListFrom {m : Memory α} {i n : Nat} (h : m.map Prod.fst = List.range' i n) :
    m = ofListFrom i (m.map Prod.snd) := by
  induction m generalizing i n with
  | nil => rfl
  | cons p m ih =>
    cases n with
    | zero => simp at h
    | succ n =>
      simp only [List.map_cons, List.range'_succ, List.cons.injEq] at h
      simp only [List.map_cons, ofListFrom, List.cons.injEq]
      exact ⟨by rw [← h.1], ih h.2⟩

theorem eq_ofList {m : Memory α} {n : Nat} (h : m.map Prod.fst = List.range n) : m = ofList (m.map Prod.snd) :=
  eq_ofListFrom (by rw [h, List.range_eq_range'])

/-- The row of a space with every element written, and what it says of the space. -/
theorem row?_eq_some {m : Memory α} {n : Nat} {xs : List α} :
    m.row? n = some xs ↔ m = ofList xs ∧ xs.length = n := by
  constructor
  · intro h
    simp only [row?] at h
    split at h
    · rename_i hk
      obtain rfl := Option.some.inj h
      have hl : m.length = n := by simpa using congrArg List.length hk
      exact ⟨eq_ofList hk, by simpa using hl⟩
    · cases h
  · rintro ⟨rfl, rfl⟩; exact row?_ofList xs

/-- A space with every element written has a row. -/
theorem exists_row {m : Memory α} {n : Nat} (h : m.map Prod.fst = List.range n) : ∃ xs, m.row? n = some xs :=
  ⟨m.map Prod.snd, by simp [row?, h]⟩

/-- Writing the next element of a space of `0 .. n-1` appends it. -/
theorem keys_write_next (m : Memory α) (n : Nat) (x : α) (h : m.map Prod.fst = List.range n) :
    (m.write n x).map Prod.fst = List.range (n + 1) := by
  have : ∀ (m : Memory α) (i k : Nat), m.map Prod.fst = List.range' i k →
      (m.write (i + k) x).map Prod.fst = List.range' i (k + 1) := by
    intro m
    induction m with
    | nil =>
      intro i k hk
      obtain rfl : k = 0 := by simpa using congrArg List.length hk.symm
      simp [write]
    | cons p m ih =>
      intro i k hk
      cases k with
      | zero => simp at hk
      | succ k =>
        obtain ⟨a, v⟩ := p
        simp only [List.map_cons, List.range'_succ, List.cons.injEq] at hk
        obtain ⟨rfl, hk⟩ := hk
        have := ih (a + 1) k hk
        simp only [write, show a < a + (k + 1) by omega, if_true, List.map_cons]
        rw [show a + (k + 1) = a + 1 + k by omega, this, ← List.range'_succ]
  simpa [List.range_eq_range'] using this m 0 n (by rw [h, List.range_eq_range'])

/-- An entry of a space in canonical form is what its index reads as. -/
theorem read_of_mem {m : Memory α} {k : Nat} {v : α} (hw : m.wf) (h : (k, v) ∈ m) : m.read k = some v := by
  induction m with
  | nil => cases h
  | cons p m ih =>
    obtain ⟨a, u⟩ := p
    simp only [wf, List.map_cons, List.pairwise_cons, List.mem_map] at hw
    simp only [read]
    rcases List.mem_cons.1 h with h | h
    · cases h; simp
    · have : a < k := hw.1 k ⟨_, h, rfl⟩
      rw [if_neg (Nat.ne_of_lt this)]
      exact ih hw.2 h

/-- What an index reads as is an entry of the space. -/
theorem mem_of_read {m : Memory α} {k : Nat} {v : α} (h : m.read k = some v) : (k, v) ∈ m := by
  induction m with
  | nil => cases h
  | cons p m ih =>
    obtain ⟨a, u⟩ := p
    simp only [read] at h
    split at h
    · subst_vars; cases h; simp
    · exact List.mem_cons_of_mem _ (ih h)

end Sys2Proof.Machine.Memory
end

