-- ==== Sys2Proof/Laws/Correlator.lean ====
section
/-!
SUPPORT. The laws of the sample buffer and of the correlator: rotation as a list rotation, the bounds of the sum,
classification, and what the bodies of ROT, CORR and DECODE do.
-/

namespace Sys2Proof.Machine

/-! ## Rotation -/

@[simp] theorem length_rotateList (xs : List Sample) : (rotateList xs).length = xs.length := by
  rcases xs.eq_nil_or_concat with rfl | ⟨ys, y, rfl⟩ <;> simp [rotateList]

/-- Moving the last element to the front is rotating left by all but one position. -/
theorem rotateList_eq_rotate (xs : List Sample) : rotateList xs = xs.rotate (xs.length - 1) := by
  rcases xs.eq_nil_or_concat with rfl | ⟨ys, y, rfl⟩
  · rfl
  · simp [rotateList, List.rotate_eq_drop_append_take]

theorem length_iterate_rotateList (p : Nat) (xs : List Sample) : (rotateList^[p] xs).length = xs.length := by
  induction p generalizing xs with
  | zero => rfl
  | succ p ih => simp [Function.iterate_succ, ih]

theorem iterate_rotateList (p : Nat) (xs : List Sample) :
    rotateList^[p] xs = xs.rotate (p * (xs.length - 1)) := by
  induction p generalizing xs with
  | zero => simp
  | succ p ih =>
    rw [Function.iterate_succ_apply, ih, length_rotateList, rotateList_eq_rotate, List.rotate_rotate]
    congr 1
    rw [Nat.succ_mul, Nat.add_comm]

/-- Rotating as often as there are elements restores the list (R143). -/
theorem iterate_rotateList_length (xs : List Sample) : rotateList^[xs.length] xs = xs := by
  rw [iterate_rotateList, List.rotate_length_mul]

/-- The index `p` rotations move element `j` from. -/
theorem rotate_index {n : Nat} (p j : Nat) (hn : 0 < n) : (j + p * (n - 1)) % n = (j + (n - p % n)) % n := by
  obtain ⟨m, rfl⟩ : ∃ m, n = m + 1 := ⟨n - 1, by omega⟩
  have hle : p % (m + 1) ≤ m + 1 := (Nat.mod_lt _ (by omega)).le
  change (j + p * (m + 1 - 1)) ≡ (j + (m + 1 - p % (m + 1))) [MOD m + 1]
  refine Nat.ModEq.add_left_cancel (Nat.ModEq.refl p) ?_
  have h1 : p + (j + p * (m + 1 - 1)) = j + p * (m + 1) := by simp; ring
  have h2 : p + (j + (m + 1 - p % (m + 1))) = j + (m + 1) * (p / (m + 1) + 1) := by
    have := Nat.div_add_mod p (m + 1)
    rw [Nat.mul_add]
    omega
  rw [h1, h2, Nat.ModEq]
  simp

/-- Element `j` after `p` rotations is the old element `(j - p) mod L` (R143). -/
theorem getElem?_iterate_rotateList (p j : Nat) (xs : List Sample) (h : j < xs.length) :
    (rotateList^[p] xs)[j]? = xs[(j + (xs.length - p % xs.length)) % xs.length]? := by
  rw [iterate_rotateList, List.getElem?_rotate h, rotate_index p j (by omega)]

theorem toNat_nextPhase {c : Cfg} (hc : c.OK) (p : BitVec 10) : (nextPhase c p).toNat = (p.toNat + 1) % c.l := by
  have h1 := hc.l_pos
  have h2 := hc.l_le
  have : (p.toNat + 1) % c.l < c.l := Nat.mod_lt _ (by omega)
  simp only [nextPhase, BitVec.toNat_ofNat]
  exact Nat.mod_eq_of_lt (by omega)

/-! ## Rows -/

theorem sampRow?_eq_some {s : State} {xs : List Sample} :
    s.sampRow? = some xs ↔ s.samp = Memory.ofList xs ∧ xs.length = s.cfg.l := Memory.row?_eq_some

theorem codeRow?_eq_some {s : State} {k : BitVec 8} {row : List Bool} :
    s.codeRow? k = some row ↔ s.code.read k.toNat = some row ∧ row.length = s.cfg.l := by
  simp only [State.codeRow?]
  cases s.code.read k.toNat with
  | none => simp
  | some r =>
    by_cases h : r.length = s.cfg.l
    · simp only [h, if_true, Option.some.injEq]; exact ⟨fun e => ⟨e, e ▸ h⟩, And.left⟩
    · simp only [h, if_false, reduceCtorEq, false_iff, Option.some.injEq]; rintro ⟨rfl, h'⟩; exact h h'

/-! ## The sum -/

theorem sgn_mul_bounds (c : Bool) (x : Sample) : -(2 ^ 15) ≤ sgn c * x.toInt ∧ sgn c * x.toInt ≤ 2 ^ 15 := by
  have h1 := BitVec.toInt_lt (x := x)
  have h2 := BitVec.le_toInt (x := x)
  cases c <;> simp [sgn] <;> omega

/-- Each position adds at most `2^15` in magnitude (R151). -/
theorem corrSum_bounds (row : List Bool) (xs : List Sample) :
    -(2 ^ 15 * (xs.length : Int)) ≤ corrSum row xs ∧ corrSum row xs ≤ 2 ^ 15 * (xs.length : Int) := by
  induction xs generalizing row with
  | nil => cases row <;> simp [corrSum]
  | cons x xs ih =>
    cases row with
    | nil => simp [corrSum]; omega
    | cons c cs =>
      have h1 := ih cs
      have h2 := sgn_mul_bounds c x
      simp only [corrSum, List.length_cons, Nat.cast_add, Nat.cast_one]
      omega

/-- A value within `2^25` of 0 is held exactly by 27 bits (R151). -/
theorem toInt_ofInt27 {a : Int} (h1 : -(2 ^ 25) ≤ a) (h2 : a ≤ 2 ^ 25) : (BitVec.ofInt 27 a).toInt = a := by
  rw [BitVec.toInt_ofInt]
  apply Int.bmod_eq_of_le <;> simp <;> omega

theorem corrSum_fits (row : List Bool) (xs : List Sample) (h : xs.length ≤ 1024) :
    -(2 ^ 25) ≤ corrSum row xs ∧ corrSum row xs ≤ 2 ^ 25 := by
  have := corrSum_bounds row xs
  omega

/-! ## The score and its class -/

/-- A truncated quotient is no larger in magnitude than what it divides. -/
theorem tdiv_bounds (a : Int) (f : Nat) (b : Int) (h1 : -b ≤ a) (h2 : a ≤ b) : -b ≤ tdiv a f ∧ tdiv a f ≤ b := by
  have h := Int.natAbs_tdiv_le_natAbs a f
  simp only [tdiv]
  omega

/-- The class is decided by the sum and the scaled thresholds (R154): the high test. -/
theorem le_tdiv_iff {a T : Int} {f : Nat} (hf : 1 ≤ f) (hT : 1 ≤ T) : T ≤ tdiv a f ↔ T * f ≤ a := by
  have hf' : (0 : Int) < f := by exact_mod_cast hf
  simp only [tdiv]
  rcases Int.le_total 0 a with h | h
  · rw [Int.tdiv_eq_ediv_of_nonneg h]
    exact Int.le_ediv_iff_mul_le hf'
  · constructor
    · intro hq
      have h0 : 0 ≤ (-a).tdiv f := Int.tdiv_nonneg (by omega) hf'.le
      rw [Int.neg_tdiv] at h0
      omega
    · intro hq
      have : 0 < T * f := by positivity
      omega

/-- The class is decided by the sum and the scaled thresholds (R154): the low test. -/
theorem tdiv_le_iff {a T : Int} {f : Nat} (hf : 1 ≤ f) (hT : T ≤ -1) : tdiv a f ≤ T ↔ a ≤ T * f := by
  have h := le_tdiv_iff (a := -a) (T := -T) hf (by omega)
  simp only [tdiv, Int.neg_tdiv, Int.neg_mul] at h ⊢
  omega

theorem classify_ne_01 (c : Cfg) (x : Int) : classify c x ≠ 0b01 := by
  simp only [classify]; split
  · decide
  · split <;> decide

theorem classDetermined_iff (c : Cfg) (x : Int) :
    classDetermined (classify c x) = true ↔ c.thrHi ≤ x ∨ x ≤ c.thrLo := by
  simp only [classify, classDetermined, ge_iff_le]
  split
  · simp_all
  · split <;> simp_all

/-! ## The bodies -/

theorem rotBody_eq_ok {s u : State} : rotBody s = .ok u ↔ ∃ xs, s.sampRow? = some xs ∧ u = s.rotated xs := by
  cases h : s.sampRow? <;> simp [rotBody, h, @eq_comm _ u]

theorem corrBody_eq_ok {k : BitVec 8} {s u : State} :
    corrBody k s = .ok u ↔
      ∃ row xs, s.codeRow? k = some row ∧ s.sampRow? = some xs ∧ u = s.setCorr (corrSum row xs) := by
  cases h : s.codeRow? k <;> cases h' : s.sampRow? <;> simp [corrBody, h, h', @eq_comm _ u]

theorem report_eq (s : State) (k : BitVec 8) :
    s.report k = s ∨ s.report k = s.emitResult (resultWord (classBit s.cls) k s.phase) := by
  simp only [State.report]; split <;> simp

theorem report_frame (s : State) (k : BitVec 8) : s.report k = { s with resout := (s.report k).resout } := by
  rcases report_eq s k with h | h
  · rw [h]
  · rw [h]; rfl

@[simp] theorem report_sampRow? (s : State) (k : BitVec 8) : (s.report k).sampRow? = s.sampRow? := by
  rw [report_frame]; rfl

@[simp] theorem setCorr_sampRow? (s : State) (a : Int) : (s.setCorr a).sampRow? = s.sampRow? := rfl

@[simp] theorem rotated_sampRow? {s : State} {xs : List Sample} (h : xs.length = s.cfg.l) :
    (s.rotated xs).sampRow? = some (rotateList xs) := by
  rw [sampRow?_eq_some]; exact ⟨rfl, by simpa using h⟩

/-- One iteration of DECODE on a buffer `xs` and a row `row`. -/
theorem decodeIteration_eq_ok {k : BitVec 8} {s u : State} :
    decodeIteration k s = .ok u ↔ ∃ row xs, s.codeRow? k = some row ∧ s.sampRow? = some xs ∧
      u = ((s.setCorr (corrSum row xs)).report k).rotated xs := by
  cases h : corrBody k s with
  | error e =>
    simp only [decodeIteration, h, reduceCtorEq, false_iff]
    rintro ⟨row, xs, h1, h2, -⟩
    have := corrBody_eq_ok.2 ⟨row, xs, h1, h2, rfl⟩
    rw [h] at this; cases this
  | ok v =>
    obtain ⟨row, xs, h1, h2, rfl⟩ := corrBody_eq_ok.1 h
    simp [decodeIteration, h, h1, h2, rotBody_eq_ok]

end Sys2Proof.Machine
end

