-- ==== Sys2Proof/Laws/Decode.lean ====
section
/-!
SUPPORT. The fields of a command word, what each format of the decoder accepts, and the fields of an encoded
command.
-/

namespace Sys2Proof

/-- A word is its opcode and its low 24 bits. -/
theorem word_eq_append (w : Word) : opField w ++ w.extractLsb' 0 24 = w := by
  apply BitVec.eq_of_getLsbD_eq
  intro i hi
  simp only [opField, BitVec.getLsbD_append, BitVec.getLsbD_extractLsb']
  split
  · simp [show i < 24 by assumption]
  · simp [show i - 24 < 8 by omega, show 24 + (i - 24) = i by omega]

/-- The low 24 bits in formats I and R. -/
theorem low24_eq_append8 (w : Word) : w.extractLsb' 8 16 ++ w.extractLsb' 0 8 = w.extractLsb' 0 24 := by
  apply BitVec.eq_of_getLsbD_eq
  intro i hi
  simp only [BitVec.getLsbD_append, BitVec.getLsbD_extractLsb']
  split
  · simp [show i < 8 by assumption, show i < 24 by omega]
  · simp [show i - 8 < 16 by omega, show 8 + (i - 8) = i by omega, show i < 24 by omega]

/-- The low 24 bits in formats C and S. -/
theorem low24_eq_append16 (w : Word) : w.extractLsb' 16 8 ++ w.extractLsb' 0 16 = w.extractLsb' 0 24 := by
  apply BitVec.eq_of_getLsbD_eq
  intro i hi
  simp only [BitVec.getLsbD_append, BitVec.getLsbD_extractLsb']
  split
  · simp [show i < 16 by assumption, show i < 24 by omega]
  · simp [show i - 16 < 8 by omega, show 16 + (i - 16) = i by omega, show i < 24 by omega]

@[simp] theorem opField_append (op : BitVec 8) (x : BitVec 24) : opField (op ++ x) = op :=
  BitVec.extractLsb'_append_eq_left

@[simp] theorem low24_append (op : BitVec 8) (x : BitVec 24) : (op ++ x : Word).extractLsb' 0 24 = x :=
  BitVec.extractLsb'_append_eq_right

/-- An encoded command carries its opcode where the decoder reads it. -/
@[simp] theorem opField_encode (i : Instr) : opField (encode i) = i.opcode := opField_append _ _

@[simp] theorem low24_encode (i : Instr) : (encode i).extractLsb' 0 24 = i.payload := low24_append _ _

/-- The decoder's register numbers are the well-formed ones. -/
theorem readReg?_isSome : ∀ r : BitVec 8, (readReg? r).isSome = legalRegNum r := by decide

theorem formatZ_eq_command {w : Word} {i j : Instr} :
    formatZ w i = .command j ↔ w.extractLsb' 0 24 = 0 ∧ j = i := by
  simp only [formatZ]; split <;> simp_all [eq_comm]

theorem formatI_eq_command {w : Word} {i : BitVec 8 → Instr} {j : Instr} :
    formatI w i = .command j ↔ w.extractLsb' 8 16 = 0 ∧ j = i (w.extractLsb' 0 8) := by
  simp only [formatI]; split <;> simp_all [eq_comm]

theorem formatC_eq_command {w : Word} {i : BitVec 16 → Instr} {j : Instr} :
    formatC w i = .command j ↔ w.extractLsb' 16 8 = 0 ∧ j = i (w.extractLsb' 0 16) := by
  simp only [formatC]; split <;> simp_all [eq_comm]

theorem formatRdreg_eq_command {w : Word} {j : Instr} :
    formatRdreg w = .command j ↔
      w.extractLsb' 8 16 = 0 ∧ legalRegNum (w.extractLsb' 0 8) = true ∧ j = .rdreg (w.extractLsb' 0 8) := by
  simp only [formatRdreg, ← readReg?_isSome]
  split
  · cases readReg? (w.extractLsb' 0 8) <;> simp_all [eq_comm]
  · simp_all

/-- Two words are equal only if their parts are. -/
theorem append_inj {n m : Nat} {a a' : BitVec n} {b b' : BitVec m} (h : a ++ b = a' ++ b') : a = a' ∧ b = b' := by
  constructor
  · have := congrArg (BitVec.extractLsb' m n) h
    rwa [BitVec.extractLsb'_append_eq_left, BitVec.extractLsb'_append_eq_left] at this
  · have := congrArg (BitVec.extractLsb' 0 m) h
    rwa [BitVec.extractLsb'_append_eq_right, BitVec.extractLsb'_append_eq_right] at this

/-- The low 24 bits are those of an operand of formats I and R. -/
theorem low24_eq8 (w : Word) (x : BitVec 8) :
    w.extractLsb' 0 24 = 0#16 ++ x ↔ w.extractLsb' 8 16 = 0 ∧ x = w.extractLsb' 0 8 := by
  rw [← low24_eq_append8]
  exact ⟨fun h => ⟨(append_inj h).1, (append_inj h).2.symm⟩, fun ⟨h1, h2⟩ => by rw [h1, h2]; rfl⟩

/-- The low 24 bits are those of an operand of formats C and S. -/
theorem low24_eq16 (w : Word) (x : BitVec 16) :
    w.extractLsb' 0 24 = 0#8 ++ x ↔ w.extractLsb' 16 8 = 0 ∧ x = w.extractLsb' 0 16 := by
  rw [← low24_eq_append16]
  exact ⟨fun h => ⟨(append_inj h).1, (append_inj h).2.symm⟩, fun ⟨h1, h2⟩ => by rw [h1, h2]; rfl⟩

/-- The word of a command, by its opcode and its low 24 bits. -/
theorem encode_eq_iff (w : Word) (i : Instr) :
    encode i = w ↔ opField w = i.opcode ∧ w.extractLsb' 0 24 = i.payload := by
  constructor
  · rintro rfl; simp
  · rintro ⟨h1, h2⟩; rw [encode, ← h1, ← h2, word_eq_append]

/-- A decoding is a command or illegal. -/
theorem decoded_cases (d : Decoded) : (∃ i, d = .command i) ∨ ∃ why, d = .illegal why := by
  cases d <;> simp

end Sys2Proof
end

