-- ==== Sys2Proof/Laws/Exec.lean ====
section
/-!
SUPPORT. Everything a command can do, said once: if it answers a next state, it was dropped, or it faulted, or it
had its own effect.
-/

namespace Sys2Proof.Machine

theorem sfull_eq_true (s : State) : s.sfull = true ↔ s.slen.toNat = s.cfg.l := by simp [State.sfull]

theorem idInRange_eq_true (s : State) (k : BitVec 8) : s.idInRange k = true ↔ k.toNat < s.cfg.n := by
  simp [State.idInRange]

/-- DECODE's loop writes the buffer, PHASE, ACC, SCORE and CLASS, and appends to RESOUT; nothing else. -/
theorem decodeLoop_frame {k : BitVec 8} (n : Nat) {s u : State} (e : decodeLoop k n s = .ok u) :
    ∃ m p a b c ws,
      u = { s with samp := m, phase := p, acc := a, score := b, cls := c, resout := s.resout ++ ws } := by
  induction n generalizing s with
  | zero => cases e; exact ⟨u.samp, u.phase, u.acc, u.score, u.cls, [], by simp⟩
  | succ n ih =>
    simp only [decodeLoop] at e
    split at e
    · rename_i v hv
      obtain ⟨row, xs, h1, h2, rfl⟩ := decodeIteration_eq_ok.1 hv
      obtain ⟨m, p, a, b, c, ws, rfl⟩ := ih e
      rcases report_eq (s.setCorr (corrSum row xs)) k with hr | hr <;> rw [hr]
      · exact ⟨m, p, a, b, c, ws, rfl⟩
      · refine ⟨m, p, a, b, c,
          resultWord (classBit (s.setCorr (corrSum row xs)).cls) k (s.setCorr (corrSum row xs)).phase :: ws, ?_⟩
        simp [State.rotated, State.emitResult, State.setCorr]
    · cases e

/-- The own effect of a command: what it does when it is neither dropped nor faults. -/
def Effect (i : Instr) (s t : State) : Prop :=
  match i with
  | .nop => t = s
  | .rdreg r => ∃ reg, readReg? r = some reg ∧ t = s.emitRead (s.regWord reg)
  | .srst => t = s.toReset
  | .ginit k => s.fault = false ∧ k.toNat < s.cfg.n ∧ t = s.bindGen k
  | .gstep => s.fault = false ∧ s.gvalid = true ∧ gstepBody s = .ok t
  | .ggen n => s.fault = false ∧ s.gvalid = true ∧ ggenBody n.toNat s = .ok t
  | .gmat k => s.fault = false ∧ k.toNat < s.cfg.n ∧ gmatBody k s = .ok t
  | .sclr => s.fault = false ∧ t = s.clearBuffer
  | .spush v => s.fault = false ∧ s.slen.toNat < s.cfg.l ∧ t = s.pushSample v
  | .rot => s.fault = false ∧ s.slen.toNat = s.cfg.l ∧ rotBody s = .ok t
  | .corr k =>
    s.fault = false ∧ k.toNat < s.cfg.n ∧ s.slen.toNat = s.cfg.l ∧ s.rowValid k = true ∧ corrBody k s = .ok t
  | .decode k =>
    s.fault = false ∧ k.toNat < s.cfg.n ∧ s.slen.toNat = s.cfg.l ∧ s.rowValid k = true ∧
      decodeLoop k s.cfg.l s = .ok t

/-- What a command that answers a next state has done. -/
theorem exec_next_cases {i : Instr} {s t : State} (e : exec i s = .next t) :
    (s.fault = true ∧ t = s) ∨ (s.fault = false ∧ ∃ x, t = s.enterFault x (encode i)) ∨ Effect i s t := by
  cases i with
  | nop => cases e; exact .inr (.inr rfl)
  | rdreg r =>
    simp only [exec, execRdreg] at e
    split at e
    · rename_i reg h; cases e; exact .inr (.inr ⟨reg, h, rfl⟩)
    · rcases illegalWord_eq_next.1 e with h | ⟨h, rfl⟩
      · exact .inl h
      · exact .inr (.inl ⟨h, _, rfl⟩)
  | srst => cases e; exact .inr (.inr rfl)
  | ginit k =>
    simp only [exec, execGinit, unlessFaulted_eq_next, require_eq_next, idInRange_eq_true] at e
    rcases e with h | ⟨hf, ⟨hk, e⟩ | ⟨_, rfl⟩⟩
    · exact .inl h
    · cases e; exact .inr (.inr ⟨hf, hk, rfl⟩)
    · exact .inr (.inl ⟨hf, _, rfl⟩)
  | gstep =>
    simp only [exec, execGstep, unlessFaulted_eq_next, require_eq_next, finish_eq_next] at e
    rcases e with h | ⟨hf, ⟨hk, e⟩ | ⟨_, rfl⟩⟩
    · exact .inl h
    · exact .inr (.inr ⟨hf, hk, e⟩)
    · exact .inr (.inl ⟨hf, _, rfl⟩)
  | ggen n =>
    simp only [exec, execGgen, ggenTrips, unlessFaulted_eq_next, require_eq_next, finish_eq_next] at e
    rcases e with h | ⟨hf, ⟨hk, e⟩ | ⟨_, rfl⟩⟩
    · exact .inl h
    · exact .inr (.inr ⟨hf, hk, e⟩)
    · exact .inr (.inl ⟨hf, _, rfl⟩)
  | gmat k =>
    simp only [exec, execGmat, unlessFaulted_eq_next, require_eq_next, finish_eq_next, idInRange_eq_true] at e
    rcases e with h | ⟨hf, ⟨hk, e⟩ | ⟨_, rfl⟩⟩
    · exact .inl h
    · exact .inr (.inr ⟨hf, hk, e⟩)
    · exact .inr (.inl ⟨hf, _, rfl⟩)
  | sclr =>
    simp only [exec, execSclr, unlessFaulted_eq_next] at e
    rcases e with h | ⟨hf, e⟩
    · exact .inl h
    · cases e; exact .inr (.inr ⟨hf, rfl⟩)
  | spush v =>
    simp only [exec, execSpush, unlessFaulted_eq_next, require_eq_next, decide_eq_true_eq] at e
    rcases e with h | ⟨hf, ⟨hk, e⟩ | ⟨_, rfl⟩⟩
    · exact .inl h
    · cases e; exact .inr (.inr ⟨hf, hk, rfl⟩)
    · exact .inr (.inl ⟨hf, _, rfl⟩)
  | rot =>
    simp only [exec, execRot, unlessFaulted_eq_next, require_eq_next, finish_eq_next, sfull_eq_true] at e
    rcases e with h | ⟨hf, ⟨hk, e⟩ | ⟨_, rfl⟩⟩
    · exact .inl h
    · exact .inr (.inr ⟨hf, hk, e⟩)
    · exact .inr (.inl ⟨hf, _, rfl⟩)
  | corr k =>
    simp only [exec, execCorr, unlessFaulted_eq_next, require_eq_next, finish_eq_next, sfull_eq_true, idInRange_eq_true] at e
    rcases e with h | ⟨hf, ⟨hk, ⟨hl, ⟨hc, e⟩ | ⟨_, rfl⟩⟩ | ⟨_, rfl⟩⟩ | ⟨_, rfl⟩⟩
    · exact .inl h
    · exact .inr (.inr ⟨hf, hk, hl, hc, e⟩)
    all_goals exact .inr (.inl ⟨hf, _, rfl⟩)
  | decode k =>
    simp only [exec, execDecode, decodeTrips, unlessFaulted_eq_next, require_eq_next, finish_eq_next, sfull_eq_true, idInRange_eq_true] at e
    rcases e with h | ⟨hf, ⟨hk, ⟨hl, ⟨hc, e⟩ | ⟨_, rfl⟩⟩ | ⟨_, rfl⟩⟩ | ⟨_, rfl⟩⟩
    · exact .inl h
    · exact .inr (.inr ⟨hf, hk, hl, hc, e⟩)
    all_goals exact .inr (.inl ⟨hf, _, rfl⟩)

end Sys2Proof.Machine
end

