-- ==== Sys2Proof/Laws/Invariant.lean ====
section
/-!
SUPPORT. Every named update of the state keeps the invariants, and what the invariants give the bodies: rows that
can be read and a tap pair that exists.
-/

namespace Sys2Proof.Machine.State.Inv

variable {s : State}

/-- The invariants do not look at the port or at the channels. -/
theorem surroundings (h : s.Inv) (cs : List Bool) (rs ds : List Word) (p : List PortEvent) :
    State.Inv { s with chipout := cs, resout := rs, rdout := ds, port := p } := by
  cases h; constructor <;> assumption

theorem popPort (h : s.Inv) (p : List PortEvent) : State.Inv { s with port := p } := by
  cases h; constructor <;> assumption

theorem emitChips (h : s.Inv) (cs : List Bool) : (s.emitChips cs).Inv := by
  cases h; constructor <;> assumption

theorem emitResult (h : s.Inv) (w : Word) : (s.emitResult w).Inv := by
  cases h; constructor <;> assumption

theorem emitRead (h : s.Inv) (w : Word) : (s.emitRead w).Inv := by
  cases h; constructor <;> assumption

theorem report (h : s.Inv) (k : BitVec 8) : (s.report k).Inv := by
  rcases report_eq s k with e | e <;> rw [e]
  · exact h
  · exact h.emitResult _

theorem enterFault (h : s.Inv) (x : Cause) (w : Word) : (s.enterFault x w).Inv := by
  cases h
  constructor
  case diag_clear => intro hf; cases hf
  case diag_set => intro _; exact x.code_range
  all_goals assumption

theorem toReset (h : s.Inv) : s.toReset.Inv where
  cfg_ok := h.cfg_ok
  id_lt := by have := h.cfg_ok.n_pos; simp; omega
  slen_le := by simp
  phase_lt := by have := h.cfg_ok.l_pos; simp; omega
  phase_zero _ := rfl
  cls_ne := by simp
  score_eq := by simp [tdiv]
  cls_eq := by
    have h1 := h.cfg_ok.thrHi_pos
    have h2 := h.cfg_ok.thrLo_neg
    simp [classify, show ¬ s.cfg.thrHi ≤ 0 by omega, show ¬ (0 : Int) ≤ s.cfg.thrLo by omega]
  diag_clear _ := ⟨rfl, rfl⟩
  diag_set hf := by simp at hf
  unbound _ := ⟨rfl, rfl, rfl⟩
  acc_ge := by simp
  acc_le := by simp
  code_wf := by simp [Memory.wf]
  code_rows := by simp
  code_valid := by simp
  samp_listed := by simp

/-- A generator that has been bound may move its registers. -/
theorem setGen (h : s.Inv) (hv : s.gvalid = true) (g : Gen) : (s.setGen g).Inv := by
  cases h
  constructor
  case unbound => intro hf; rw [setGen_gvalid, hv] at hf; cases hf
  all_goals assumption

theorem bindGen (h : s.Inv) {k : BitVec 8} (hk : k.toNat < s.cfg.n) : (s.bindGen k).Inv := by
  cases h
  constructor
  case unbound => intro hf; cases hf
  case id_lt => exact hk
  all_goals assumption

theorem storeRow (h : s.Inv) {k : BitVec 8} {row : List Bool} (hk : k.toNat < s.cfg.n) (hl : row.length = s.cfg.l) :
    (s.storeRow k row).Inv := by
  have hw := h.code_wf
  have hr := h.code_rows
  have hv := h.code_valid
  cases h
  constructor
  case code_wf => exact Memory.write_wf _ _ hw
  case code_rows =>
    intro p hp
    rcases Memory.mem_write hp with rfl | hp
    · exact ⟨hk, hl⟩
    · exact hr p hp
  case code_valid =>
    intro j hj hb
    rw [storeRow_cvalid, getLsbD_setValid _ _ _ hj] at hb
    rw [storeRow_code, Memory.read_write]
    split
    · rfl
    · exact hv j hj (by simpa [*] using hb)
  all_goals assumption

theorem clearBuffer (h : s.Inv) : s.clearBuffer.Inv := by
  have h0 := h.cfg_ok.l_pos
  cases h
  constructor
  case slen_le => simp
  case phase_lt => simp; omega
  case phase_zero => intro _; rfl
  case samp_listed => rfl
  all_goals assumption

theorem toNat_slen_add_one (h : s.Inv) (hl : s.slen.toNat < s.cfg.l) : (s.slen + 1).toNat = s.slen.toNat + 1 := by
  have := h.cfg_ok.l_le
  rw [BitVec.toNat_add]
  exact Nat.mod_eq_of_lt (by simp; omega)

theorem pushSample (h : s.Inv) (hl : s.slen.toNat < s.cfg.l) (v : Sample) : (s.pushSample v).Inv := by
  have h1 := h.toNat_slen_add_one hl
  have h2 := h.phase_zero hl
  have h3 := h.samp_listed
  cases h
  constructor
  case slen_le => rw [pushSample_slen, h1]; exact hl
  case phase_zero => intro _; exact h2
  case samp_listed => rw [pushSample_samp, pushSample_slen, h1]; exact Memory.keys_write_next _ _ _ h3
  all_goals assumption

theorem rotated (h : s.Inv) {xs : List Sample} (hx : s.sampRow? = some xs) (hl : s.slen.toNat = s.cfg.l) :
    (s.rotated xs).Inv := by
  have h1 := (sampRow?_eq_some.1 hx).2
  have h2 := toNat_nextPhase h.cfg_ok s.phase
  have h3 := h.cfg_ok.l_pos
  cases h
  constructor
  case phase_lt => rw [rotated_phase, h2]; exact Nat.mod_lt _ h3
  case phase_zero => intro hf; rw [rotated_slen, hl] at hf; exact absurd hf (Nat.lt_irrefl _)
  case samp_listed => rw [rotated_samp, Memory.keys_ofList, length_rotateList, h1, rotated_slen, hl]
  all_goals assumption

theorem setCorr (h : s.Inv) {a : Int} (h1 : -(2 ^ 15 * (s.cfg.l : Int)) ≤ a) (h2 : a ≤ 2 ^ 15 * (s.cfg.l : Int)) :
    (s.setCorr a).Inv := by
  have hl := h.cfg_ok.l_le
  have ha : (BitVec.ofInt 27 a).toInt = a := toInt_ofInt27 (by omega) (by omega)
  have hb := tdiv_bounds a s.cfg.f _ h1 h2
  have hs : (BitVec.ofInt 27 (tdiv a s.cfg.f)).toInt = tdiv a s.cfg.f := toInt_ofInt27 (by omega) (by omega)
  cases h
  constructor
  case cls_ne => exact classify_ne_01 _ _
  case score_eq => rw [setCorr_score, setCorr_acc, ha, hs]; rfl
  case cls_eq => rw [setCorr_score, hs]; rfl
  case acc_ge => rw [setCorr_acc, ha]; exact h1
  case acc_le => rw [setCorr_acc, ha]; exact h2
  all_goals assumption

/-! ## What can be read -/

/-- A full buffer can be read. -/
theorem exists_sampRow (h : s.Inv) (hl : s.slen.toNat = s.cfg.l) : ∃ xs, s.sampRow? = some xs :=
  Memory.exists_row (by rw [h.samp_listed, hl])

/-- A valid row can be read. -/
theorem exists_codeRow (h : s.Inv) {k : BitVec 8} (hk : s.cvalid.getLsbD k.toNat = true) :
    ∃ row, s.codeRow? k = some row := by
  obtain ⟨row, hr⟩ := Option.isSome_iff_exists.1 (h.code_valid _ (by have := k.isLt; omega) hk)
  exact ⟨row, codeRow?_eq_some.2 ⟨hr, (h.code_rows _ (Memory.mem_of_read hr)).2⟩⟩

/-- The identity the generator is bound to has a tap pair. -/
theorem exists_tapPair (h : s.Inv) : ∃ t, s.tapPair? s.id = some t := tapPair?_of_lt h.cfg_ok h.id_lt

/-- The sum of a readable row and buffer meets the bound of the invariants. -/
theorem corrSum_bounds_row {xs : List Sample} (row : List Bool) (hx : s.sampRow? = some xs) :
    -(2 ^ 15 * (s.cfg.l : Int)) ≤ corrSum row xs ∧ corrSum row xs ≤ 2 ^ 15 * (s.cfg.l : Int) := by
  have := corrSum_bounds row xs
  rwa [(sampRow?_eq_some.1 hx).2] at this

end Sys2Proof.Machine.State.Inv
end

