-- ==== Sys2Proof/Laws/PerInstr.lean ====
section
/-!
SUPPORT. Statements made of every command as syntax, one lemma per constructor.
-/

namespace Sys2Proof.Laws.OpcodeInPlace

/-- The word of a command holds the command's opcode in bits 31:24 and its operand below (R90, R91). -/
def Statement (i : Instr) : Prop := opField (encode i) = i.opcode ∧ (encode i).extractLsb' 0 24 = i.payload

theorem nop : Statement .nop := ⟨opField_encode _, low24_encode _⟩
theorem rdreg (r : BitVec 8) : Statement (.rdreg r) := ⟨opField_encode _, low24_encode _⟩
theorem srst : Statement .srst := ⟨opField_encode _, low24_encode _⟩
theorem ginit (id : BitVec 8) : Statement (.ginit id) := ⟨opField_encode _, low24_encode _⟩
theorem gstep : Statement .gstep := ⟨opField_encode _, low24_encode _⟩
theorem ggen (n : BitVec 16) : Statement (.ggen n) := ⟨opField_encode _, low24_encode _⟩
theorem gmat (id : BitVec 8) : Statement (.gmat id) := ⟨opField_encode _, low24_encode _⟩
theorem sclr : Statement .sclr := ⟨opField_encode _, low24_encode _⟩
theorem spush (v : Sample) : Statement (.spush v) := ⟨opField_encode _, low24_encode _⟩
theorem rot : Statement .rot := ⟨opField_encode _, low24_encode _⟩
theorem corr (id : BitVec 8) : Statement (.corr id) := ⟨opField_encode _, low24_encode _⟩
theorem decode (id : BitVec 8) : Statement (.decode id) := ⟨opField_encode _, low24_encode _⟩

end Sys2Proof.Laws.OpcodeInPlace
end

