-- ==== Sys2Proof/Machine/Assembler.lean ====
section
/-!
DEFINITION. The assembler syntax (spec/30_encoding.md R97) and the pseudo-commands in it (R98), over lists of
characters: one line to the commands it stands for, `none` where the assembler rejects it (log entry 13).
-/

namespace Sys2Proof.Machine.Asm

/-- A line without its comment. -/
def stripComment : List Char → List Char
  | [] => []
  | c :: cs => if c = ';' then [] else c :: stripComment cs

/-- A blank, or the comma between operands. -/
def isSeparator (c : Char) : Bool := c = ' ' || c = '\t' || c = '\r' || c = ','

/-- The words of a line; `cur` is the word being read, last character first. -/
def tokensFrom (cur : List Char) : List Char → List (List Char)
  | [] => if cur = [] then [] else [cur.reverse]
  | c :: cs =>
    if isSeparator c then (if cur = [] then tokensFrom [] cs else cur.reverse :: tokensFrom [] cs)
    else tokensFrom (c :: cur) cs

/-- The words of a line. -/
def tokens (line : List Char) : List (List Char) := tokensFrom [] (stripComment line)

/-- The value of a decimal digit. -/
def decDigit? (c : Char) : Option Nat :=
  if 48 ≤ c.toNat ∧ c.toNat ≤ 57 then some (c.toNat - 48) else none

/-- The value of a hexadecimal digit. -/
def hexDigit? (c : Char) : Option Nat :=
  if 48 ≤ c.toNat ∧ c.toNat ≤ 57 then some (c.toNat - 48)
  else if 65 ≤ c.toNat ∧ c.toNat ≤ 70 then some (c.toNat - 55)
  else if 97 ≤ c.toNat ∧ c.toNat ≤ 102 then some (c.toNat - 87)
  else none

/-- The number whose digits follow those of `acc`. -/
def digitsFrom (base : Nat) (digit? : Char → Option Nat) (acc : Nat) : List Char → Option Nat
  | [] => some acc
  | c :: cs =>
    match digit? c with
    | some d => digitsFrom base digit? (base * acc + d) cs
    | none => none

/-- A number of at least one digit. -/
def digits (base : Nat) (digit? : Char → Option Nat) (cs : List Char) : Option Nat :=
  if cs = [] then none else digitsFrom base digit? 0 cs

/-- An operand as it is written: decimal, negative decimal, or hexadecimal after `0x`. -/
inductive Operand where
  | dec (n : Nat)
  | neg (n : Nat)
  | hex (n : Nat)
deriving DecidableEq, Repr

/-- One operand. -/
def operand? (t : List Char) : Option Operand :=
  match t with
  | '0' :: 'x' :: cs => (digits 16 hexDigit? cs).map .hex
  | '-' :: cs => (digits 10 decDigit? cs).map .neg
  | cs => (digits 10 decDigit? cs).map .dec

/-- An unsigned field of `w` bits: an operand that does not fit is rejected. -/
def unsigned? (w : Nat) (t : List Char) : Option (BitVec w) :=
  match operand? t with
  | some (.dec n) => if n < 2 ^ w then some (BitVec.ofNat w n) else none
  | some (.hex n) => if n < 2 ^ w then some (BitVec.ofNat w n) else none
  | some (.neg _) => none
  | none => none

/-- A sample: decimal `-32768 .. 32767`, or the 16 bits in hexadecimal. -/
def sample? (t : List Char) : Option Sample :=
  match operand? t with
  | some (.dec n) => if n < 2 ^ 15 then some (BitVec.ofNat 16 n) else none
  | some (.neg n) => if n ≤ 2 ^ 15 then some (BitVec.ofInt 16 (-(n : Int))) else none
  | some (.hex n) => if n < 2 ^ 16 then some (BitVec.ofNat 16 n) else none
  | none => none

/-- Every operand of a list of samples. -/
def samples? : List (List Char) → Option (List Sample)
  | [] => some []
  | t :: ts =>
    match sample? t, samples? ts with
    | some v, some vs => some (v :: vs)
    | _, _ => none

/-- The samples of SLOAD and RUN: exactly `L` of them (R98). -/
def buffer? (c : Cfg) (ts : List (List Char)) : Option (List Sample) :=
  if ts.length = c.l then samples? ts else none

/-- A mnemonic alone on its line. -/
def plain? (ops : List (List Char)) (is : List Instr) : Option (List Instr) :=
  if ops = [] then some is else none

/-- A mnemonic with one unsigned operand. -/
def one? (w : Nat) (ops : List (List Char)) (i : BitVec w → Instr) : Option (List Instr) :=
  match ops with
  | [t] => (unsigned? w t).map fun x => [i x]
  | _ => none

/-- The commands of a mnemonic and its operands. -/
def command? (c : Cfg) (m : List Char) (ops : List (List Char)) : Option (List Instr) :=
  if m = ['N', 'O', 'P'] then plain? ops [.nop]
  else if m = ['R', 'D', 'R', 'E', 'G'] then one? 8 ops .rdreg
  else if m = ['S', 'R', 'S', 'T'] then plain? ops [.srst]
  else if m = ['G', 'I', 'N', 'I', 'T'] then one? 8 ops .ginit
  else if m = ['G', 'S', 'T', 'E', 'P'] then plain? ops [.gstep]
  else if m = ['G', 'G', 'E', 'N'] then one? 16 ops .ggen
  else if m = ['G', 'M', 'A', 'T'] then one? 8 ops .gmat
  else if m = ['S', 'C', 'L', 'R'] then plain? ops [.sclr]
  else if m = ['S', 'P', 'U', 'S', 'H'] then
    match ops with
    | [t] => (sample? t).map fun v => [.spush v]
    | _ => none
  else if m = ['R', 'O', 'T'] then plain? ops [.rot]
  else if m = ['C', 'O', 'R', 'R'] then one? 8 ops .corr
  else if m = ['D', 'E', 'C', 'O', 'D', 'E'] then one? 8 ops .decode
  else if m = ['G', 'E', 'N', 'S', 'E', 'Q'] then
    match ops with
    | [t, u] =>
      match unsigned? 8 t, unsigned? 16 u with
      | some id, some n => some (genseq id n)
      | _, _ => none
    | _ => none
  else if m = ['G', 'M', 'A', 'T', 'A', 'L', 'L'] then plain? ops (gmatall c)
  else if m = ['S', 'L', 'O', 'A', 'D'] then (buffer? c ops).map sload
  else if m = ['S', 'C', 'A', 'N', 'A', 'L', 'L'] then plain? ops (scanall c)
  else if m = ['R', 'U', 'N'] then (buffer? c ops).map (runBatch c)
  else none

/-- One line: the commands it stands for, none for an empty or a comment line. -/
def line? (c : Cfg) (line : List Char) : Option (List Instr) :=
  match tokens line with
  | [] => some []
  | m :: ops => command? c m ops

/-- One line as the command words it assembles to. -/
def assemble? (c : Cfg) (line : List Char) : Option (List Word) := (line? c line).map (·.map encode)

end Sys2Proof.Machine.Asm
end

