-- ==== Sys2Proof/Tests/Slice0.lean ====
section
/-!
SUPPORT. The model's own tests. Expected results come from spec/95_test_vectors.md (the vector is named beside each
test) or are written out from the encodings of spec/30_encoding.md. The second half gives, for every obligation
with hypotheses, states and operands that meet them.
-/

open Sys2Proof Sys2Proof.Machine Sys2Proof.Claim

namespace Sys2Proof.Tests

/-! ## Small states under T8 -/

/-- Reset under T8. -/
def start : State := State.resetOf Cfg.t8

/-- The generator bound to identity 0. -/
def bound : State := { start with gvalid := true }

/-- A port with `es` on it. -/
def withPort (es : List PortEvent) (s : State) : State := { s with port := es }

/-- A fault of cause 2 by GINIT 24 (V23u). -/
def faulted : State := { start with fault := true, cause := 2, fcmd := 0x10000018 }

/-- Samples written as numbers. -/
def samples (vs : List Int) : List Sample := vs.map (BitVec.ofInt 16)

/-- The two rows of V16. -/
def row0 : List Bool := [true, true, false, false, true, false, false, false]
def row1 : List Bool := [true, true, true, false, false, true, false, false]

/-- Both rows materialised, nothing loaded. -/
def rows : State :=
  { start with code := [(0, row0), (1, row1)], cvalid := 3, ra := 0x0E3, rb := 0x2D3, id := 1, gvalid := true }

/-- Both rows materialised and the samples `vs` loaded. -/
def loaded (vs : List Int) : State :=
  { rows with samp := Memory.ofList (samples vs), slen := BitVec.ofNat 11 vs.length }

/-- The buffer of V20. -/
def buf20 : List Int := [-100, 100, -100, -100, -100, 100, 100, -100]

/-- The state after a command, if it answers one. -/
def next? : Result → Option State
  | .next s => some s
  | .fault _ => none
  | .refused _ => none

/-- `ACC`, `SCORE`, `CLASS` after a command. -/
def scored (r : Result) : Option (Int × Int × BitVec 2) :=
  (next? r).map fun s => (s.acc.toInt, s.score.toInt, s.cls)

/-- `FAULT`, `CAUSE`, `FCMD` after a command. -/
def diag (r : Result) : Option (Bool × BitVec 4 × Word) := (next? r).map fun s => (s.fault, s.cause, s.fcmd)

/-- What a step on the word `w` in `s` answers. -/
def stepOn (w : Word) (s : State) : Result := step (withPort [.command w] s)

/-! ## WellFormed refuses ill-formed commands -/

theorem test_wf_refuses_reserved_registers :
    (Instr.rdreg 0x09).wf = false ∧ (Instr.rdreg 0x0F).wf = false ∧ (Instr.rdreg 0x15).wf = false ∧
    (Instr.rdreg 0x1F).wf = false ∧ (Instr.rdreg 0x28).wf = false ∧ (Instr.rdreg 0xFF).wf = false := by decide

/-! ## Decoding: words written bit by bit from the formats of R91 and the opcodes of R93 -/

theorem test_decode_nop : decode 0b00000000_000000000000000000000000#32 = .command .nop := by decide
theorem test_decode_rdreg : decode 0b00000001_0000000000000000_00100111#32 = .command (.rdreg 0x27) := by decide
theorem test_decode_srst : decode 0b00000010_000000000000000000000000#32 = .command .srst := by decide
theorem test_decode_ginit : decode 0b00010000_0000000000000000_10000001#32 = .command (.ginit 129) := by decide
theorem test_decode_gstep : decode 0b00010001_000000000000000000000000#32 = .command .gstep := by decide
theorem test_decode_ggen : decode 0b00010010_00000000_1000000000000011#32 = .command (.ggen 32771) := by decide
theorem test_decode_gmat : decode 0b00010011_0000000000000000_00000101#32 = .command (.gmat 5) := by decide
theorem test_decode_sclr : decode 0b00100000_000000000000000000000000#32 = .command .sclr := by decide
theorem test_decode_spush : decode 0b00100001_00000000_1111111110011100#32 = .command (.spush (-100)) := by decide
theorem test_decode_rot : decode 0b00100010_000000000000000000000000#32 = .command .rot := by decide
theorem test_decode_corr : decode 0b00110000_0000000000000000_11001000#32 = .command (.corr 200) := by decide
theorem test_decode_decode : decode 0b00110001_0000000000000000_00000001#32 = .command (.decode 1) := by decide

/-- V23h to V23m: rejected by name. -/
theorem test_decode_rejects :
    decode 0x01000009 = .illegal .reservedRegister ∧ decode 0x03000000 = .illegal .opcode ∧
    decode 0xFFFFFFFF = .illegal .opcode ∧ decode 0x11000001 = .illegal .reservedBits ∧
    decode 0x10000100 = .illegal .reservedBits ∧ decode 0x12010000 = .illegal .reservedBits := by decide

/-- The table's numbering: one word, 32 bits. -/
theorem test_decodeTableWord :
    decodeTableWord 32 0x1200FFFF = some (.ggen 65535) ∧ decodeTableWord 32 0x03000000 = none := by decide

/-- Words printed in P2, P3 and V17. -/
theorem test_encode :
    encode (.gmat 1) = 0x13000001 ∧ encode (.spush (-32768)) = 0x21008000 ∧ encode (.ginit 23) = 0x10000017 ∧
    encode (.decode 1) = 0x31000001 := by decide

/-! ## Generator -/

/-- V1 to V3, V11a, V11b, V11d. -/
theorem test_cell :
    (List.finRange 10).all (fun i => cell 0x3FF (CellIdx.ofFin i)) = true ∧
    cell 0x200 (CellIdx.ofFin 0) = true ∧ cell 0x1FF (CellIdx.ofFin 0) = false ∧
    cell 0x0FF (CellIdx.ofFin 1) = false ∧ cell 0x0FF (CellIdx.ofFin 2) = true := by decide

/-- V11e to V11h. -/
theorem test_shiftIn :
    shiftIn 0x3FF false = 0x1FF ∧ shiftIn 0x001 false = 0 ∧ shiftIn 0x001 true = 0x200 ∧
    shiftIn 0x27F false = 0x13F := by decide

/-- V12b, step 4. -/
theorem test_gstep_step_4 :
    ((next? (exec .gstep { bound with ra := 0x07F, rb := 0x27F })).map fun s => (s.ra, s.rb, s.chip, s.chipout)) =
      some (0x23F, 0x13F, false, [false]) := by decide

/-- V12b, step 11: the output cell is 0. -/
theorem test_gstep_step_11 :
    ((next? (exec .gstep { bound with ra := 0x238, rb := 0x0B4 })).map fun s => (s.ra, s.rb, s.chip, s.chipout)) =
      some (0x11C, 0x25A, true, [true]) := by decide

/-- V23s on T8: the last identity is accepted, the next faults. -/
theorem test_ginit :
    ((next? (exec (.ginit 1) start)).map fun s => (s.id, s.gvalid, s.fault)) = some (1, true, false) ∧
    diag (exec (.ginit 2) start) = some (true, 2, 0x10000002) := by decide

/-- P1 on T8, whose entry 0 is that of REF: ten chips. -/
theorem test_ggen :
    ((next? (exec (.ggen 10) bound)).map fun s => (s.ra, s.rb, s.chipout)) =
      some (0x238, 0x0B4, [true, true, false, false, true, false, false, false, false, false]) := by decide

/-- V12e: no chip. -/
theorem test_ggen_zero : next? (exec (.ggen 0) bound) = some bound := by decide

/-- V16. -/
theorem test_gmat :
    ((next? (exec (.gmat 1) start)).map fun s => (s.code, s.cvalid, s.id, s.gvalid)) =
      some ([(1, row1)], 2, 1, true) ∧
    ((next? (exec (.gmat 1) start)).map fun s => (s.ra, s.rb, s.chip, s.chipout)) =
      some (0x0E3, 0x2D3, false, []) := by decide

/-! ## Sample buffer -/

/-- V17b. -/
theorem test_spush :
    ((next? (exec (.spush (-100)) start)).map fun s => (s.samp, s.slen)) = some ([(0, 0xFF9C)], 1) := by decide

/-- V17e. -/
theorem test_spush_full : diag (exec (.spush 1) (loaded buf20)) = some (true, 3, 0x21000001) := by decide

/-- V17f. -/
theorem test_sclr :
    ((next? (exec .sclr { loaded buf20 with phase := 3 })).map fun s => (s.samp, s.slen, s.phase)) =
      some ([], 0, 0) := by decide

/-- V17h. -/
theorem test_rot :
    ((next? (exec .rot (loaded [1, 2, 3, 4, 5, 6, 7, 8]))).map fun s => (s.samp, s.phase)) =
      some (Memory.ofList (samples [8, 1, 2, 3, 4, 5, 6, 7]), 1) := by decide

/-- V17j. -/
theorem test_rot_wraps : ((next? (exec .rot { loaded buf20 with phase := 7 })).map (·.phase)) = some 0 := by decide

/-! ## Correlator -/

/-- V9. -/
theorem test_classify :
    [63, 62, -65, -64, 0].map (classify Cfg.t8) = [0b11, 0b00, 0b10, 0b00, 0b00] := by decide

/-- V18. -/
theorem test_tdiv :
    [630, 639, 629, -650, -659, -649, -641, -9, 1023, -1023].map (tdiv · 10) =
      [63, 63, 62, -65, -65, -64, -64, 0, 102, -102] := by decide

/-- V19a, on the high threshold. -/
theorem test_corr_high :
    scored (exec (.corr 0) (loaded [84, 78, -78, -78, 78, -78, -78, -78])) = some (630, 63, 0b11) := by decide

/-- V19f: the quotient is truncated, not floored. -/
theorem test_corr_truncates :
    scored (exec (.corr 0) (loaded [-81, -80, 80, 80, -80, 80, 80, 80])) = some (-641, -64, 0b00) := by decide

/-- V20. -/
theorem test_decode_reports :
    ((next? (exec (.decode 0) (loaded buf20))).map fun s => (s.resout, s.acc.toInt, s.score.toInt, s.cls, s.phase)) =
      some ([0x01000003], 400, 40, 0b00, 0) := by decide

/-- V20: every sample negated; and two rotations first (the table's buffer at phase 2). -/
theorem test_decode_other_starts :
    ((next? (exec (.decode 0) (loaded [100, -100, 100, 100, 100, -100, -100, 100]))).map (·.resout)) =
      some [0x00000003] ∧
    ((next? (exec (.decode 0) { loaded [100, -100, -100, 100, -100, -100, -100, 100] with phase := 2 })).map
      (·.resout)) = some [0x01000003] := by decide

/-! ## System commands and the port -/

/-- V23b, V23c, V23f. -/
theorem test_rdreg :
    ((next? (stepOn 0x01000000 start)).map (·.rdout)) = some [0] ∧
    ((next? (stepOn 0x01000003 start)).map (·.rdout)) = some [0x3FF] ∧
    ((next? (stepOn 0x01000014 start)).map (·.rdout)) = some [0xFFFFFFBF] ∧
    ((next? (stepOn 0x01000020 rows)).map (·.rdout)) = some [3] := by decide

/-- V23u: read-back while FAULT = 1. -/
theorem test_rdreg_faulted :
    ((next? (stepOn 0x01000000 faulted)).map (·.rdout)) = some [0x21] ∧
    ((next? (stepOn 0x01000001 faulted)).map (·.rdout)) = some [0x10000018] := by decide

/-- V23h, V23k, V23n, V23o: illegal words and NO_GEN. -/
theorem test_faults :
    diag (stepOn 0x01000009 start) = some (true, 1, 0x01000009) ∧
    diag (stepOn 0x11000001 start) = some (true, 1, 0x11000001) ∧
    diag (stepOn 0x11000000 start) = some (true, 4, 0x11000000) ∧
    diag (stepOn 0x12000000 start) = some (true, 4, 0x12000000) := by decide

/-- V23p, V23q, V23r: the order of CORR's and DECODE's tests. -/
theorem test_fault_order :
    diag (stepOn 0x30000000 start) = some (true, 3, 0x30000000) ∧
    diag (stepOn 0x300000C8 start) = some (true, 2, 0x300000C8) ∧
    diag (stepOn 0x31000001 { loaded buf20 with cvalid := 0 }) = some (true, 5, 0x31000001) := by decide

/-- V23t: dropped. -/
theorem test_dropped : next? (stepOn 0x11000000 faulted) = some faulted ∧
    next? (stepOn 0x03000000 faulted) = some faulted := by decide

/-- V23v: SRST leaves the fault state. -/
theorem test_srst : next? (stepOn 0x02000000 { faulted with rdout := [7] }) =
    some { start with rdout := [7] } := by decide

/-- R228: GGEN 10 cut short after four chips keeps the four of V12b. -/
theorem test_rst_inside_ggen :
    next? (step (withPort [.commandThenRst 0x1200000A 4] bound)) =
      some { start with chipout := [true, true, false, false] } := by decide

/-! ## Assembler -/

/-- R97, R98 and the words of P2. -/
theorem test_assemble :
    Asm.assemble? Cfg.t8 "SPUSH -100 ; a sample".toList = some [0x2100FF9C] ∧
    Asm.assemble? Cfg.t8 "GENSEQ 1, 0x0A".toList = some [0x10000001, 0x1200000A] ∧
    Asm.assemble? Cfg.t8 "GMATALL".toList = some [0x13000000, 0x13000001] ∧
    Asm.assemble? Cfg.t8 "GINIT 256".toList = none := by decide

/-! ## Hypotheses are met: states with the invariants -/

theorem t8_ok : Cfg.t8.OK := by constructor <;> decide

theorem ref_ok : Cfg.ref.OK := by constructor <;> decide

theorem answers {r : Result} (h : (next? r).isSome = true) : ∃ t, r = .next t := by
  cases r with
  | next s => exact ⟨s, rfl⟩
  | fault => cases h
  | refused => cases h

theorem withPort_inv {s : State} (es : List PortEvent) (h : s.Inv) : (withPort es s).Inv := h.popPort es

/-- Of the valid rows of a state built here, both are listed. -/
theorem rows_valid (k : Nat) (hk : k < 256) (h : (3 : BitVec 256).getLsbD k = true) :
    (Memory.read [(0, row0), (1, row1)] k).isSome = true := by
  rcases Nat.lt_or_ge k 2 with h2 | h2
  · interval_cases k <;> rfl
  · have : (3 : Nat) < 2 ^ k := lt_of_lt_of_le (by decide : 3 < 2 ^ 2) (Nat.pow_le_pow_right (by decide) h2)
    have h3 : (3 : BitVec 256).getLsbD k = Nat.testBit 3 k := rfl
    rw [h3, Nat.testBit_lt_two_pow this] at h
    cases h

theorem none_valid (s : State) (hs : s.cvalid = 0) :
    ∀ k < 256, s.cvalid.getLsbD k = true → (s.code.read k).isSome = true := by
  intro k _ h
  rw [hs] at h
  simp at h

theorem start_inv : start.Inv := by constructor <;> first | exact t8_ok | exact rows_valid | exact none_valid _ rfl | decide

theorem bound_inv : bound.Inv := by constructor <;> first | exact t8_ok | exact rows_valid | exact none_valid _ rfl | decide

theorem faulted_inv : faulted.Inv := by constructor <;> first | exact t8_ok | exact rows_valid | exact none_valid _ rfl | decide

theorem rows_inv : rows.Inv := by constructor <;> first | exact t8_ok | exact rows_valid | exact none_valid _ rfl | decide

theorem loaded_inv : (loaded buf20).Inv := by constructor <;> first | exact t8_ok | exact rows_valid | exact none_valid _ rfl | decide

theorem loaded_ready : ReadyFor (loaded buf20) 0 ∧ ReadyFor (loaded buf20) 1 :=
  ⟨⟨loaded_inv, by decide⟩, ⟨loaded_inv, by decide⟩⟩

/-- A full buffer that has been rotated, with a sum in `ACC`: the last phase before PHASE returns to 0. -/
def rotated7 : State := { loaded buf20 with phase := 7, acc := 630, score := 63, cls := 0b11 }

theorem rotated7_inv : rotated7.Inv := by constructor <;> first | exact t8_ok | exact rows_valid | exact none_valid _ rfl | decide

/-- A buffer one sample short of full. -/
def almost : State := loaded [1, 2, 3, 4, 5, 6, 7]

theorem almost_inv : almost.Inv := by constructor <;> first | exact t8_ok | exact rows_valid | exact none_valid _ rfl | decide

/-! ## Hypotheses are met: one theorem for each obligation that has any -/

theorem wit_DecodeOfEncode :
    [Instr.rdreg 0x08, .rdreg 0x10, .rdreg 0x14, .rdreg 0x20, .rdreg 0x27, .ggen 65535, .spush (-32768), .decode 255].all
      Instr.wf = true := by decide

theorem wit_EncodeOfDecode : decode 0x1200FFFF = .command (.ggen 65535) := by decide

/-- One word for each part of R95, on each value of FAULT. -/
theorem wit_IllegalWordsFaultOrDrop :
    (∀ w ∈ [0x03000000#32, 0x11000001, 0x10000100, 0x12010000, 0x01000009], IllegalWord w) ∧
    (∀ w ∈ [0x03000000#32, 0x11000001, 0x10000100, 0x12010000, 0x01000009],
      (withPort [.command w] start).port = .command w :: [] ∧ (withPort [.command w] start).fault = false ∧
      (withPort [.command w] faulted).port = .command w :: [] ∧ (withPort [.command w] faulted).fault = true) := by
  constructor
  · intro w hw
    simp only [List.mem_cons, List.not_mem_nil, or_false] at hw
    rcases hw with rfl | rfl | rfl | rfl | rfl <;> unfold IllegalWord <;> decide
  · simp [withPort, start, faulted, State.resetOf]

theorem wit_StepRunsDecodedCommand :
    (withPort [.command 0x10000001] start).port = .command 0x10000001 :: [] ∧
    decode 0x10000001 = .command (.ginit 1) ∧ encode (.ginit 1) = 0x10000001 ∧ (Instr.ginit 1).wf = true ∧
    decodeTableWord 32 0x10000001 = some (.ginit 1) := by decide

theorem wit_ResetReachesStatedValues :
    (withPort [.rst] faulted).port = .rst :: [] := by decide

theorem wit_IdleMachineStaysIdle : (withPort [] faulted).port = [] ∧ (withPort [] bound).port = [] := by decide

/-- In the middle of DECODE, and at both ends of it. -/
theorem wit_RstDuringCommandKeepsPrefix (k : Nat) :
    (withPort [.commandThenRst 0x31000000 k] (loaded buf20)).Inv ∧
    (withPort [.commandThenRst 0x31000000 k] (loaded buf20)).port = .commandThenRst 0x31000000 k :: [] := by
  exact ⟨withPort_inv _ loaded_inv, rfl⟩

theorem wit_ResetStateMeetsInvariants : Cfg.t8.OK ∧ Cfg.ref.OK := ⟨t8_ok, ref_ok⟩

theorem test_step_decode_answers : (next? (stepOn 0x31000000 (loaded buf20))).isSome = true := by decide

/-- A step that emits a result word, and one that faults. -/
theorem wit_StepKeepsInvariants :
    (withPort [.command 0x31000000] (loaded buf20)).Inv ∧
    (∃ t, step (withPort [.command 0x31000000] (loaded buf20)) = .next t) ∧
    (withPort [.command 0x10000002] start).Inv ∧ (∃ t, step (withPort [.command 0x10000002] start) = .next t) := by
  exact ⟨withPort_inv _ loaded_inv, answers test_step_decode_answers, withPort_inv _ start_inv, answers (by decide)⟩

theorem wit_NoStepStops : (withPort [.command 0x30000001] rotated7).Inv := withPort_inv _ rotated7_inv

theorem wit_ReachableStatesMeetR41 : Cfg.ref.OK ∧ Cfg.t8.OK := ⟨ref_ok, t8_ok⟩

theorem wit_FaultEntryWritesDiagnosticsOnly :
    (withPort [.command 0x10000002] start).fault = false ∧
    step (withPort [.command 0x10000002] start) = .next { start with fault := true, cause := 2, fcmd := 0x10000002 } ∧
    State.fault { start with fault := true, cause := 2, fcmd := 0x10000002 } = true := ⟨rfl, rfl, rfl⟩

/-- Every cause of every command, at the first identity out of range and at the first one in it; then commands none of
whose tests fails; then a word that is no command. -/
theorem wit_FirstFailingTestDecides :
    [Instr.ginit 2, .gmat 255, .corr 2, .decode 2].map (firstFailing start) = [some 2, some 2, some 2, some 2] ∧
    [Instr.rot, .corr 1, .decode 1].map (firstFailing start) = [some 3, some 3, some 3] ∧
    firstFailing almost .rot = some 3 ∧ firstFailing (loaded buf20) (.spush 1) = some 3 ∧
    firstFailing start .gstep = some 4 ∧ firstFailing start (.ggen 0) = some 4 ∧
    [Instr.corr 1, .decode 1].map (firstFailing { loaded buf20 with cvalid := 1 }) = [some 5, some 5] ∧
    [Instr.ginit 1, .gmat 1, .spush 1].map (firstFailing almost) = [none, none, none] ∧
    [Instr.rot, .corr 1, .decode 1, .gstep].map (firstFailing (loaded buf20)) = [none, none, none, none] ∧
    start.fault = false ∧ almost.fault = false ∧ (loaded buf20).fault = false ∧
    (withPort [.command 0xFFFFFFFF] start).port = .command 0xFFFFFFFF :: [] ∧
    (decode 0xFFFFFFFF).instr? = none := by decide

/-- One word for each clause of R188. -/
theorem wit_FaultStateDropsOtherWords :
    faulted.fault = true ∧ decode 0x00000000 = .command .nop ∧ decode 0x01000001 = .command (.rdreg 1) ∧
    decode 0x02000000 = .command .srst ∧ decode 0x11000000 = .command .gstep ∧
    decode 0x01000009 = .illegal .reservedRegister ∧
    (∀ w, (withPort [.command w] faulted).port = .command w :: []) ∧ faulted.cfg.OK :=
  ⟨rfl, by decide, by decide, by decide, by decide, by decide, fun _ => rfl, t8_ok⟩

theorem wit_OnlyResetLeavesFaultState :
    (withPort [.command 0x11000000] faulted).fault = true ∧
    step (withPort [.command 0x11000000] faulted) = .next faulted ∧
    (withPort [.rst] faulted).fault = true ∧ step (withPort [.rst] faulted) = .next start := ⟨rfl, rfl, rfl, rfl⟩

/-- A pair with equal taps, a feedback tap at cell 10, and the cells 1, 2 and 10. -/
theorem wit_GenStepProperties :
    (TapPair.of 10 10).t1 = (TapPair.of 10 10).t2 ∧
    ({ Cfg.t8 with aTap := ⟨10, by decide⟩ } : Cfg).aTap.val = 10 := by decide

theorem wit_CellsAndShiftIn : ∀ i ∈ [2, 10], 2 ≤ i ∧ i ≤ 10 ∧ 1 ≤ i - 1 := by decide

theorem wit_GinitBindsGenerator :
    start.fault = false ∧ (1 : BitVec 8).toNat < start.cfg.n ∧ start.cfg.n ≤ (2 : BitVec 8).toNat := by decide

theorem wit_GstepProducesOneChip :
    bound.fault = false ∧ bound.gvalid = true ∧ bound.cfg.taps[bound.id.toNat]? = some (.of 2 6) ∧
    start.fault = false ∧ start.gvalid = false := by decide

theorem wit_GgenIsGstepRepeated :
    bound.fault = false ∧ bound.gvalid = true ∧ (bound.cfg.taps[bound.id.toNat]?).isSome = true ∧
    (4 : BitVec 16).toNat + (65531 : BitVec 16).toNat ≤ 65535 ∧ start.fault = false ∧ start.gvalid = false := by decide

theorem wit_GenerationIsDeterministic :
    Cfg.t8.OK ∧ (1 : BitVec 8).toNat < Cfg.t8.n ∧ start.cfg = Cfg.t8 ∧ start.fault = false :=
  ⟨t8_ok, by decide, rfl, rfl⟩

theorem wit_GmatMaterialisesRow :
    start.fault = false ∧ start.cfg.OK ∧ (1 : BitVec 8).toNat < start.cfg.n ∧ start.cfg.n ≤ (2 : BitVec 8).toNat :=
  ⟨rfl, t8_ok, by decide, by decide⟩

theorem wit_GmatallMaterialisesEveryRow : (loaded buf20).Inv ∧ (loaded buf20).fault = false := ⟨loaded_inv, rfl⟩

theorem wit_RefRowsAreDistinct :
    (State.resetOf Cfg.ref).cfg = Cfg.ref ∧ (State.resetOf Cfg.ref).fault = false ∧ (0 : BitVec 8).toNat < 24 ∧
    (23 : BitVec 8).toNat < 24 ∧ (0 : BitVec 8) ≠ 23 := ⟨rfl, rfl, by decide⟩

theorem wit_SclrEmptiesBuffer : rotated7.fault = false := rfl

/-- The first sample, the last one, and one too many. -/
theorem wit_SpushAppendsSample :
    (start.fault = false ∧ start.slen.toNat < start.cfg.l ∧ start.cfg.OK) ∧
    (almost.fault = false ∧ almost.slen.toNat + 1 = almost.cfg.l ∧ almost.slen.toNat < almost.cfg.l) ∧
    ((loaded buf20).fault = false ∧ (loaded buf20).cfg.l ≤ (loaded buf20).slen.toNat) :=
  ⟨⟨rfl, by decide, t8_ok⟩, by decide, by decide⟩

theorem wit_RotMovesLastToFront :
    (rotated7.fault = false ∧ rotated7.Inv ∧ rotated7.slen.toNat = rotated7.cfg.l) ∧
    (almost.fault = false ∧ almost.slen.toNat ≠ almost.cfg.l) := ⟨⟨rfl, rotated7_inv, by decide⟩, by decide⟩

theorem wit_RotationAlgebra : rotated7.Inv ∧ rotated7.fault = false ∧ rotated7.slen.toNat = rotated7.cfg.l :=
  ⟨rotated7_inv, rfl, by decide⟩

theorem wit_SloadPlacesInputInOrder :
    rotated7.cfg.OK ∧ rotated7.fault = false ∧ (samples buf20).length = rotated7.cfg.l := ⟨t8_ok, rfl, by decide⟩

theorem wit_CorrelationSumNeverOverflows :
    row0.length = (samples buf20).length ∧ (samples buf20).length ≤ 1024 ∧
    (List.replicate 1024 false).length = (List.replicate 1024 (-32768 : Sample)).length ∧
    (List.replicate 1024 (-32768 : Sample)).length ≤ 1024 := by
  refine ⟨by decide, by decide, ?_⟩
  simp only [List.length_replicate, le_refl, and_self]

theorem wit_ScoreTruncatesTowardZero : 1 ≤ 10 ∧ (0 : Int) ≤ 0 ∧ (-1 : Int) < 0 := by decide

theorem wit_ClassificationWithoutDivision : Cfg.t8.OK := t8_ok

/-- Ready; then the three failing tests at the first value of each. -/
theorem wit_CorrComputesScore :
    ReadyFor rotated7 1 ∧ start.fault = false ∧ start.cfg.n ≤ (2 : BitVec 8).toNat ∧
    (1 : BitVec 8).toNat < almost.cfg.n ∧ almost.slen.toNat ≠ almost.cfg.l ∧
    State.cvalid { loaded buf20 with cvalid := 1 } = 1 ∧ (1 : BitVec 256).getLsbD 1 = false ∧
    (loaded buf20).slen.toNat = (loaded buf20).cfg.l := by
  refine ⟨⟨rotated7_inv, by decide⟩, ?_⟩
  decide

theorem wit_DecodeIsCorrReportRotRepeated : ReadyFor (loaded buf20) 0 := loaded_ready.1

theorem wit_DecodeReportsDeterminedPhases : ReadyFor rotated7 0 := ⟨rotated7_inv, by decide⟩

theorem wit_IdentitiesAreIndependent : ReadyFor (loaded buf20) 0 ∧ ReadyFor (loaded buf20) 1 := loaded_ready

/-- A buffer of `K` times the signs of row 0. -/
def matching (K : Int) : State := loaded [K, K, -K, -K, K, -K, -K, -K]

/-- R160 at both ends of `K`. -/
theorem wit_CorrelationRoundTrip :
    ∀ K ∈ [(32767 : Int), -32767], ReadyFor (matching K) 0 ∧ -32767 ≤ K ∧ K ≤ 32767 ∧
      ∀ j < (matching K).cfg.l, ∃ c x, (matching K).codeAt? 0 j = some c ∧ (matching K).sampAt? j = some x ∧
        x.toInt = if c = true then K else -K := by
  intro K hK
  have hl : (matching K).cfg.l = 8 := rfl
  simp only [List.mem_cons, List.not_mem_nil, or_false] at hK
  rcases hK with rfl | rfl
  all_goals
    refine ⟨⟨?_, by decide⟩, by decide, by decide, ?_⟩
    · constructor <;> first | exact t8_ok | exact rows_valid | exact none_valid _ rfl | decide
    · intro j hj
      rw [hl] at hj
      interval_cases j <;> exact ⟨_, _, rfl, rfl, by decide⟩

theorem wit_BatchRunReportsEveryDeterminedPhase :
    rotated7.Inv ∧ rotated7.fault = false ∧ (samples buf20).length = rotated7.cfg.l := ⟨rotated7_inv, rfl, by decide⟩

/-- Every register number that exists, and the reserved numbers at the ends of the gaps. -/
theorem wit_RdregEmitsSelectedRegister :
    (∀ r ∈ [0x00#8, 0x01, 0x02, 0x03, 0x04, 0x05, 0x06, 0x07, 0x08], legalRegNum r = true) ∧
    (∀ r ∈ [0x10#8, 0x11, 0x12, 0x13, 0x14, 0x20, 0x21, 0x22, 0x23, 0x24, 0x25, 0x26, 0x27], legalRegNum r = true) ∧
    start.cfg.OK ∧
    (∀ r ∈ [0x09#8, 0x0F, 0x15, 0x1F, 0x28, 0xFF], legalRegNum r = false ∧
      (withPort [.command (0x010000#24 ++ r)] start).port = .command (0x010000#24 ++ r) :: [] ∧
      start.fault = false ∧ faulted.fault = true) := by
  refine ⟨by decide, by decide, t8_ok, fun r hr => ⟨?_, rfl, rfl, rfl⟩⟩
  revert r
  decide

theorem wit_ConfigFixedAndChannelsGrow :
    step (withPort [.command 0x11000000] bound) =
      .next { bound with ra := 0x1FF, rb := 0x1FF, chip := true, chipout := [true] } := rfl

/-- A command of each kind that answers a next state. -/
theorem wit_StateWrittenOnlyByItsCommands :
    Instr.gstep ≠ .srst ∧ (next? (exec .gstep bound)).isSome = true ∧
    (next? (exec (.decode 0) (loaded buf20))).isSome = true ∧ (next? (exec .rot (loaded buf20))).isSome = true ∧
    (next? (exec (.gmat 1) start)).isSome = true := by decide

theorem wit_CommandsDoNotReadChannels :
    exec .gstep bound = .next { bound with ra := 0x1FF, rb := 0x1FF, chip := true, chipout := [true] } := rfl

end Sys2Proof.Tests
end

section
/-!
SUPPORT. From a state with the invariants every port event answers a next state, which meets the invariants and has
the same configuration: the lemma about one step, and its induction over runs from reset.
-/

namespace Sys2Proof.Machine

/-- `r` answers a next state that meets the invariants and has the configuration of `s`. -/
def AnswersInv (s : State) (r : Result) : Prop := ∃ t, r = .next t ∧ t.Inv ∧ t.cfg = s.cfg

variable {s t : State} {body : Result}

theorem answersInv_next (ht : t.Inv) (hc : t.cfg = s.cfg) : AnswersInv s (.next t) := ⟨t, rfl, ht, hc⟩

theorem answersInv_finish {r : Except Fault State} (e : r = .ok t) (ht : t.Inv) (hc : t.cfg = s.cfg) :
    AnswersInv s (finish r) := ⟨t, finish_eq_next.2 e, ht, hc⟩

/-! ## The shared operations -/

theorem answersInv_unlessFaulted (h : s.Inv) (hb : AnswersInv s body) : AnswersInv s (unlessFaulted s body) := by
  cases hf : s.fault with
  | true => rw [unlessFaulted_of_fault hf]; exact answersInv_next h rfl
  | false => rwa [unlessFaulted_of_clear hf]

theorem answersInv_require (h : s.Inv) {c : Bool} (x : Cause) (w : Word) (hb : c = true → AnswersInv s body) :
    AnswersInv s (require c x w s body) := by
  cases c with
  | true => exact hb rfl
  | false => exact answersInv_next (h.enterFault x w) rfl

theorem answersInv_illegalWord (h : s.Inv) (w : Word) : AnswersInv s (illegalWord w s) :=
  answersInv_unlessFaulted h (answersInv_next (h.enterFault _ w) rfl)

/-! ## The bodies that read a memory -/

theorem answersInv_ggenBody (h : s.Inv) (hv : s.gvalid = true) (n : Nat) : AnswersInv s (finish (ggenBody n s)) := by
  obtain ⟨p, hp⟩ := h.exists_tapPair
  exact answersInv_finish (ggenBody_eq_ok.2 ⟨p, hp, rfl⟩) ((h.setGen hv _).emitChips _) rfl

theorem answersInv_gmatBody (h : s.Inv) {k : BitVec 8} (hk : k.toNat < s.cfg.n) :
    AnswersInv s (finish (gmatBody k s)) := by
  obtain ⟨p, hp⟩ := tapPair?_of_lt h.cfg_ok hk
  exact answersInv_finish (gmatBody_eq_ok.2 ⟨p, hp, rfl⟩)
    (((h.bindGen hk).setGen rfl _).storeRow hk (Gen.length_run _ _)) rfl

theorem answersInv_rotBody (h : s.Inv) (hl : s.slen.toNat = s.cfg.l) : AnswersInv s (finish (rotBody s)) := by
  obtain ⟨xs, hx⟩ := h.exists_sampRow hl
  exact answersInv_finish (rotBody_eq_ok.2 ⟨xs, hx, rfl⟩) (h.rotated hx hl) rfl

/-- With CORR's preconditions its operands can be read, and writing their sum keeps the invariants. -/
theorem exists_corrOperands (h : s.Inv) {k : BitVec 8} (hl : s.slen.toNat = s.cfg.l) (hk : s.rowValid k = true) :
    ∃ row xs, s.codeRow? k = some row ∧ s.sampRow? = some xs ∧ (s.setCorr (corrSum row xs)).Inv := by
  obtain ⟨xs, hx⟩ := h.exists_sampRow hl
  obtain ⟨row, hr⟩ := h.exists_codeRow hk
  obtain ⟨h1, h2⟩ := State.Inv.corrSum_bounds_row row hx
  exact ⟨row, xs, hr, hx, h.setCorr h1 h2⟩

theorem answersInv_corrBody (h : s.Inv) {k : BitVec 8} (hl : s.slen.toNat = s.cfg.l) (hk : s.rowValid k = true) :
    AnswersInv s (finish (corrBody k s)) := by
  obtain ⟨row, xs, hr, hx, hc⟩ := exists_corrOperands h hl hk
  exact answersInv_finish (corrBody_eq_ok.2 ⟨row, xs, hr, hx, rfl⟩) hc rfl

/-- An iteration of DECODE keeps the invariants and, for the next one, what its preconditions look at. -/
theorem exists_decodeIteration (h : s.Inv) {k : BitVec 8} (hl : s.slen.toNat = s.cfg.l) (hk : s.rowValid k = true) :
    ∃ u, decodeIteration k s = .ok u ∧ u.Inv ∧ u.cfg = s.cfg ∧ u.slen = s.slen ∧ u.cvalid = s.cvalid := by
  obtain ⟨row, xs, hr, hx, hc⟩ := exists_corrOperands h hl hk
  have hf := report_frame (s.setCorr (corrSum row xs)) k
  refine ⟨_, decodeIteration_eq_ok.2 ⟨row, xs, hr, hx, rfl⟩, (hc.report k).rotated ?_ ?_, ?_, ?_, ?_⟩
  · simpa using hx
  all_goals rw [hf]
  · exact hl
  all_goals rfl

theorem exists_decodeLoop {k : BitVec 8} (n : Nat) (h : s.Inv) (hl : s.slen.toNat = s.cfg.l)
    (hk : s.rowValid k = true) : ∃ u, decodeLoop k n s = .ok u ∧ u.Inv ∧ u.cfg = s.cfg := by
  induction n generalizing s with
  | zero => exact ⟨s, rfl, h, rfl⟩
  | succ n ih =>
    obtain ⟨v, e, hv, hc, hsl, hcv⟩ := exists_decodeIteration h hl hk
    obtain ⟨u, e', hu, hc'⟩ := ih hv (by rw [hsl, hc, hl]) (by rwa [State.rowValid, hcv])
    exact ⟨u, by simp only [decodeLoop, e, e'], hu, hc'.trans hc⟩

/-! ## Commands -/

theorem answersInv_ggenTrips (h : s.Inv) (trips : Nat) (n : BitVec 16) : AnswersInv s (ggenTrips trips n s) :=
  answersInv_unlessFaulted h <| answersInv_require h _ _ fun hv => answersInv_ggenBody h hv trips

theorem answersInv_decodeTrips (h : s.Inv) (trips : Nat) (k : BitVec 8) : AnswersInv s (decodeTrips trips k s) :=
  answersInv_unlessFaulted h <| answersInv_require h _ _ fun _ => answersInv_require h _ _ fun hl =>
    answersInv_require h _ _ fun hk =>
      let ⟨_, e, hu, hc⟩ := exists_decodeLoop trips h ((sfull_eq_true s).1 hl) hk
      answersInv_finish e hu hc

theorem answersInv_exec (h : s.Inv) (i : Instr) : AnswersInv s (exec i s) := by
  cases i with
  | nop => exact answersInv_next h rfl
  | rdreg r =>
    simp only [exec, execRdreg]
    split
    · exact answersInv_next (h.emitRead _) rfl
    · exact answersInv_illegalWord h _
  | srst => exact answersInv_next h.toReset rfl
  | ginit k =>
    exact answersInv_unlessFaulted h <| answersInv_require h _ _ fun hk =>
      answersInv_next (h.bindGen ((idInRange_eq_true s k).1 hk)) rfl
  | gstep =>
    exact answersInv_unlessFaulted h <| answersInv_require h _ _ fun hv =>
      ggenBody_one s ▸ answersInv_ggenBody h hv 1
  | ggen n => exact answersInv_ggenTrips h _ n
  | gmat k =>
    exact answersInv_unlessFaulted h <| answersInv_require h _ _ fun hk =>
      answersInv_gmatBody h ((idInRange_eq_true s k).1 hk)
  | sclr => exact answersInv_unlessFaulted h (answersInv_next h.clearBuffer rfl)
  | spush v =>
    exact answersInv_unlessFaulted h <| answersInv_require h _ _ fun hl =>
      answersInv_next (h.pushSample (of_decide_eq_true hl) v) rfl
  | rot =>
    exact answersInv_unlessFaulted h <| answersInv_require h _ _ fun hl =>
      answersInv_rotBody h ((sfull_eq_true s).1 hl)
  | corr k =>
    exact answersInv_unlessFaulted h <| answersInv_require h _ _ fun _ => answersInv_require h _ _ fun hl =>
      answersInv_require h _ _ fun hk => answersInv_corrBody h ((sfull_eq_true s).1 hl) hk
  | decode k => exact answersInv_decodeTrips h _ k

theorem answersInv_execPrefix (h : s.Inv) (k : Nat) (i : Instr) : AnswersInv s (execPrefix k i s) := by
  cases i with
  | ggen n => exact answersInv_ggenTrips h _ n
  | decode id => exact answersInv_decodeTrips h _ id
  | gmat id => exact answersInv_next h rfl
  | _ =>
    simp only [execPrefix]
    split
    · exact answersInv_next h rfl
    · exact answersInv_exec h _

/-! ## Port events, steps and runs -/

theorem answersInv_takeWord (h : s.Inv) (w : Word) : AnswersInv s (takeWord w s) := by
  simp only [takeWord]
  split
  · exact answersInv_exec h _
  · exact answersInv_illegalWord h w

theorem answersInv_takeWordThenRst (h : s.Inv) (w : Word) (k : Nat) : AnswersInv s (takeWordThenRst w k s) := by
  cases hd : decode w with
  | illegal why => simp only [takeWordThenRst, hd]; exact answersInv_next h.toReset rfl
  | command i =>
    obtain ⟨t, e, ht, hc⟩ := answersInv_execPrefix h k i
    simp only [takeWordThenRst, hd, e]
    exact answersInv_next ht.toReset hc

theorem answersInv_takeEvent (h : s.Inv) (e : PortEvent) : AnswersInv s (takeEvent e s) := by
  cases e with
  | command w => exact answersInv_takeWord h w
  | rst => exact answersInv_next h.toReset rfl
  | commandThenRst w k => exact answersInv_takeWordThenRst h w k

/-- Every step from a state with the invariants answers a state with the invariants. -/
theorem answersInv_step (h : s.Inv) : AnswersInv s (step s) := by
  simp only [step]
  split
  · exact answersInv_next h rfl
  · exact answersInv_takeEvent (h.popPort _) _

theorem run_succ_of_step (e : step s = .next t) (k : Nat) :
    Host.Core.run core (k + 1) s = Host.Core.run core k t := by
  simp [Host.Core.run, core, e]

theorem answersInv_run (k : Nat) (h : s.Inv) : AnswersInv s (Host.Core.run core k s) := by
  induction k generalizing s with
  | zero => exact answersInv_next h rfl
  | succ k ih =>
    obtain ⟨t, e, ht, hc⟩ := answersInv_step h
    obtain ⟨u, e', hu, hc'⟩ := ih ht
    exact ⟨u, (run_succ_of_step e k).trans e', hu, hc'.trans hc⟩

/-- The reset state of a valid configuration meets the invariants (R41, R42). -/
theorem resetOf_inv {c : Cfg} (hc : c.OK) : (State.resetOf c).Inv where
  cfg_ok := hc
  id_lt := hc.n_pos
  slen_le := Nat.zero_le _
  phase_lt := hc.l_pos
  phase_zero _ := rfl
  cls_ne := by simp [State.resetOf]
  score_eq := by simp [State.resetOf, tdiv]
  cls_eq := by
    have h1 := hc.thrHi_pos
    have h2 := hc.thrLo_neg
    simp [State.resetOf, classify, show ¬ c.thrHi ≤ 0 by omega, show ¬ (0 : Int) ≤ c.thrLo by omega]
  diag_clear _ := ⟨rfl, rfl⟩
  diag_set hf := by cases hf
  unbound _ := ⟨rfl, rfl, rfl⟩
  acc_ge := by simp [State.resetOf]
  acc_le := by simp [State.resetOf]
  code_wf := .nil
  code_rows _ hp := by cases hp
  code_valid _ _ hb := by simp [State.resetOf] at hb
  samp_listed := rfl

/-- Settles O13: the invariants hold at reset and along every run, and R41's relations are among them. -/
theorem reachableStatesMeetR41 : Obligations.ReachableStatesMeetR41 := by
  intro c todo k hc
  obtain ⟨t, e, ht, rfl⟩ := answersInv_run k ((resetOf_inv hc).popPort todo)
  exact ⟨t, e, rfl, ht.id_lt, ht.slen_le, ht.phase_lt, ht.phase_zero, ht.cls_ne, ht.score_eq, ht.cls_eq,
    fun hf => (ht.diag_clear hf).1, ht.unbound, ht.acc_ge, ht.acc_le⟩

end Sys2Proof.Machine
end

section
/-!
SUPPORT. The cells of an LFSR register as bits of it, and the reset state: what `rst` and SRST answer.
-/

namespace Sys2Proof.Machine

open Sys2Proof.Claim

theorem cell_eq_decide (r : Reg10) (i : Nat) (h : 1 ≤ i ∧ i ≤ 10) :
    cell r ⟨i, h⟩ = decide ((r.toNat >>> (10 - i)) % 2 = 1) := by
  simp [cell, BitVec.getLsbD, Nat.testBit_eq_decide_div_mod_eq, Nat.shiftRight_eq_div_pow]

theorem cell_shiftIn_front (r : Reg10) (b : Bool) : cell (shiftIn r b) ⟨1, by decide⟩ = b :=
  getLsbD_shiftIn r b 9 (by decide)

theorem cell_shiftIn_behind (r : Reg10) (b : Bool) (i : Nat) (h : 2 ≤ i ∧ i ≤ 10) :
    cell (shiftIn r b) ⟨i, by omega, h.2⟩ = cell r ⟨i - 1, by omega⟩ := by
  have hne : 10 - i ≠ 9 := by omega
  have hback : 10 - i + 1 = 10 - (i - 1) := by omega
  simp only [cell, getLsbD_shiftIn r b (10 - i) (by omega), if_neg hne, hback]

/-- Settles O18: a cell is a bit, and `getLsbD_shiftIn` says where a shift moves the bits. -/
theorem cellsAndShiftIn : Obligations.CellsAndShiftIn :=
  ⟨cell_eq_decide, fun r b => ⟨cell_shiftIn_front r b, cell_shiftIn_behind r b⟩, by decide, by decide⟩

theorem resetValues_toReset (s : State) : ResetValues s.toReset := by
  have hcode : ∀ id k, s.toReset.codeAt? id k = none := fun _ _ => rfl
  have hsamp : ∀ j, s.toReset.sampAt? j = none := fun _ => rfl
  simp [ResetValues, hcode, hsamp]

theorem sameSurroundings_toReset (s : State) : SameSurroundings s s.toReset := ⟨rfl, rfl, rfl, rfl, rfl⟩

theorem step_of_port {s : State} {e : PortEvent} {rest : List PortEvent} (h : s.port = e :: rest) :
    step s = takeEvent e { s with port := rest } := by
  simp only [step, h]

/-- Settles O7: SRST and `rst` both answer `State.toReset`. -/
theorem resetReachesStatedValues : Obligations.ResetReachesStatedValues :=
  ⟨fun s => ⟨s.toReset, rfl, resetValues_toReset s, sameSurroundings_toReset s⟩, fun _ _ h => step_of_port h⟩

end Sys2Proof.Machine
end

section
/-!
SUPPORT. RDREG: the word of each register as R35 and R36 describe it, and what the word of a reserved register number
does.
-/

namespace Sys2Proof.Cfg.OK

variable {c : Cfg}

theorem f_lt (hc : c.OK) : c.f < 2 ^ 26 := by
  have hle := le_mul_of_one_le_left (Int.natCast_nonneg c.f) hc.thrHi_pos
  have hlt := hc.thrHi_fits
  omega

theorem thrHi_lt (hc : c.OK) : c.thrHi < 2 ^ 26 := by
  have hpos := hc.thrHi_pos
  have hf : (1 : Int) ≤ c.f := by exact_mod_cast hc.f_pos
  exact (le_mul_of_one_le_right (by omega) hf).trans_lt hc.thrHi_fits

theorem neg_thrLo_lt (hc : c.OK) : -c.thrLo < 2 ^ 26 := by
  have hneg := hc.thrLo_neg
  have hf : (1 : Int) ≤ c.f := by exact_mod_cast hc.f_pos
  exact (le_mul_of_one_le_right (by omega) hf).trans_lt hc.thrLo_fits

end Sys2Proof.Cfg.OK

namespace Sys2Proof.Machine

open Sys2Proof.Claim

variable {s : State} {r : BitVec 8}

/-! ## The words of the registers -/

theorem statusWord_flags (s : State) :
    s.statusWord.getLsbD 0 = s.fault ∧ s.statusWord.getLsbD 1 = s.gvalid ∧
    s.statusWord.getLsbD 2 = decide (s.slen.toNat = s.cfg.l) ∧ s.statusWord.getLsbD 3 = false ∧
    s.statusWord.getLsbD 10 = s.chip := by
  simp only [State.statusWord, BitVec.getLsbD_append]
  simp [State.sfull]

theorem statusWord_fields (s : State) :
    s.statusWord.extractLsb' 4 4 = s.cause ∧ s.statusWord.extractLsb' 8 2 = s.cls ∧
    s.statusWord.extractLsb' 11 21 = 0 := by
  refine ⟨BitVec.eq_of_getLsbD_eq fun i hi => ?_, BitVec.eq_of_getLsbD_eq fun i hi => ?_,
    BitVec.eq_of_getLsbD_eq fun i hi => ?_⟩
  all_goals simp (disch := omega) only [State.statusWord, BitVec.getLsbD_append, BitVec.getLsbD_extractLsb', hi,
    decide_true, Bool.true_and, if_neg, if_true, Nat.sub_sub, Nat.add_sub_cancel_left, BitVec.ofNat_eq_ofNat,
    BitVec.getLsbD_zero]

theorem toNat_ofNat32 {n : Nat} (h : n < 2 ^ 26) : (BitVec.ofNat 32 n).toNat = n := Nat.mod_eq_of_lt (by omega)

theorem toInt_ofInt32 {a : Int} (h1 : -2 ^ 26 < a) (h2 : a < 2 ^ 26) : (BitVec.ofInt 32 a).toInt = a :=
  BitVec.toInt_ofInt_eq_self (by decide) (by omega) (by omega)

theorem getLsbD_cvalidWord (s : State) (w : Fin 8) (b : Nat) (hb : b < 32) :
    (s.cvalidWord w).getLsbD b = (decide (32 * w.val + b < s.cfg.n) && s.cvalid.getLsbD (32 * w.val + b)) := by
  simp only [State.cvalidWord, BitVec.getLsbD_ofNat, hb, Nat.testBit_shiftRight, Nat.testBit_mod_two_pow,
    BitVec.testBit_toNat, decide_true, Bool.true_and]

theorem readReg?_cvalid {w : Nat} (hw : w < 8) (hr : r.toNat = 0x20 + w) : readReg? r = some (.cvalid ⟨w, hw⟩) := by
  obtain rfl : r = BitVec.ofNat 8 (0x20 + w) := BitVec.eq_of_toNat_eq (by simp; omega)
  have h : ∀ v : Fin 8, readReg? (BitVec.ofNat 8 (0x20 + v.val)) = some (.cvalid v) := by decide
  exact h ⟨w, hw⟩

/-- The word RDREG emits for a register number is that number's word of R35. -/
theorem regWordIs_regWord {reg : ReadReg} (h : readReg? r = some reg) (hc : s.cfg.OK) :
    RegWordIs s r (s.regWord reg) := by
  have hn := hc.n_le
  have hl := hc.l_le
  have hHi := hc.thrHi_pos
  have hLo := hc.thrLo_neg
  refine ⟨?status, ?fcmd, ?id, ?ra, ?rb, ?slen, ?phase, ?acc, ?score, ?cfgN, ?cfgL, ?cfgF, ?cfgThrHi, ?cfgThrLo,
    ?cvalid⟩
  case cvalid =>
    intro w hw hr b hb
    cases h.symm.trans (readReg?_cvalid hw hr)
    exact getLsbD_cvalidWord s ⟨w, hw⟩ b hb
  all_goals rintro rfl; cases h
  case status.refl =>
    obtain ⟨hfault, hgvalid, hsfull, hzero, hchip⟩ := statusWord_flags s
    obtain ⟨hcause, hcls, hreserved⟩ := statusWord_fields s
    exact ⟨hfault, hgvalid, hsfull, hzero, hcause, hcls, hchip, hreserved⟩
  case fcmd.refl => rfl
  case acc.refl | score.refl => exact BitVec.toInt_signExtend_of_le (by decide)
  case cfgN.refl => exact toNat_ofNat32 (by omega)
  case cfgL.refl => exact toNat_ofNat32 (by omega)
  case cfgF.refl => exact toNat_ofNat32 hc.f_lt
  case cfgThrHi.refl => exact toInt_ofInt32 (by omega) hc.thrHi_lt
  case cfgThrLo.refl => exact toInt_ofInt32 (by have := hc.neg_thrLo_lt; omega) (by omega)
  all_goals exact BitVec.toNat_setWidth_of_le (by decide)

theorem exec_rdreg_of_legal (h : legalRegNum r = true) (hc : s.cfg.OK) :
    ∃ v, RegWordIs s r v ∧ exec (.rdreg r) s = .next { s with rdout := s.rdout ++ [v] } := by
  obtain ⟨reg, hreg⟩ := Option.isSome_iff_exists.1 ((readReg?_isSome r).trans h)
  refine ⟨s.regWord reg, regWordIs_regWord hreg hc, ?_⟩
  simp only [exec, execRdreg, hreg, State.emitRead]

/-! ## Reserved numbers -/

theorem encode_rdreg (r : BitVec 8) : encode (.rdreg r) = 0x010000#24 ++ r :=
  (BitVec.append_assoc (x₁ := 0x01#8) (x₂ := 0#16) (x₃ := r)).symm

theorem decode_rdreg_of_reserved (h : legalRegNum r = false) :
    decode (encode (.rdreg r)) = .illegal .reservedRegister := by
  obtain ⟨hzero, hnum⟩ := (low24_eq8 (encode (.rdreg r)) r).1 (low24_encode _)
  have hnone : readReg? r = none := Option.not_isSome_iff_eq_none.1 (by simp [readReg?_isSome, h])
  simp [decode, Instr.opcode, formatRdreg, hzero, ← hnum, hnone]

theorem takeWord_of_illegal {w : Word} {why : Illegal} (h : decode w = .illegal why) :
    takeWord w s = illegalWord w s := by
  simp only [takeWord, h]

/-- Settles O42: a register that exists has its word, and the word of a reserved number is illegal. -/
theorem rdregEmitsSelectedRegister : Obligations.RdregEmitsSelectedRegister := by
  refine ⟨fun s r => exec_rdreg_of_legal, fun s r rest hr hp => ?_⟩
  rw [← encode_rdreg] at hp ⊢
  have hstep : step s = illegalWord (encode (.rdreg r)) { s with port := rest } :=
    (step_of_port hp).trans (takeWord_of_illegal (decode_rdreg_of_reserved hr))
  rw [hstep]
  exact ⟨fun hf => unlessFaulted_of_clear hf, fun hf => unlessFaulted_of_fault hf⟩

end Sys2Proof.Machine
end

section
/-!
SUPPORT. The encoding: the decoder reads exactly the words of well-formed commands, a mask of the opcode map parts a
word into its fixed bits and its operand, and what the decoder refuses is what R95 lists.
-/

namespace Sys2Proof

variable {w : Word} {i : Instr}

/-! ## The decoder and the encoder -/

/-- The decoder reads exactly the words of well-formed commands. -/
theorem decode_eq_command_iff : decode w = .command i ↔ encode i = w ∧ i.wf = true := by
  rw [encode_eq_iff]
  constructor
  · simp only [decode]
    split <;> rename_i hop <;> intro h
    case h_13 => cases h
    case h_2 =>
      obtain ⟨hzero, hlegal, rfl⟩ := formatRdreg_eq_command.1 h
      exact ⟨⟨BitVec.eq_of_toNat_eq hop, (low24_eq8 w _).2 ⟨hzero, rfl⟩⟩, hlegal⟩
    case h_1 | h_3 | h_5 | h_8 | h_10 =>
      obtain ⟨hzero, rfl⟩ := formatZ_eq_command.1 h
      exact ⟨⟨BitVec.eq_of_toNat_eq hop, hzero⟩, rfl⟩
    case h_6 | h_9 =>
      obtain ⟨hzero, rfl⟩ := formatC_eq_command.1 h
      exact ⟨⟨BitVec.eq_of_toNat_eq hop, (low24_eq16 w _).2 ⟨hzero, rfl⟩⟩, rfl⟩
    all_goals
      obtain ⟨hzero, rfl⟩ := formatI_eq_command.1 h
      exact ⟨⟨BitVec.eq_of_toNat_eq hop, (low24_eq8 w _).2 ⟨hzero, rfl⟩⟩, rfl⟩
  · rintro ⟨⟨hop, hlow⟩, hwf⟩
    simp only [decode, hop]
    cases i with
    | nop | srst | gstep | sclr | rot => exact formatZ_eq_command.2 ⟨hlow, rfl⟩
    | rdreg r =>
      obtain ⟨hzero, rfl⟩ := (low24_eq8 w r).1 hlow
      exact formatRdreg_eq_command.2 ⟨hzero, hwf, rfl⟩
    | ginit x | gmat x | corr x | decode x =>
      obtain ⟨hzero, rfl⟩ := (low24_eq8 w x).1 hlow
      exact formatI_eq_command.2 ⟨hzero, rfl⟩
    | ggen x | spush x =>
      obtain ⟨hzero, rfl⟩ := (low24_eq16 w x).1 hlow
      exact formatC_eq_command.2 ⟨hzero, rfl⟩

theorem decode_eq_command_of_wf (h : i.wf = true) : decode w = .command i ↔ encode i = w := by
  simp [decode_eq_command_iff, h]

/-! ## The masks of the opcode map (R93) -/

theorem append_eq_append_iff {n m : Nat} {a a' : BitVec n} {b b' : BitVec m} :
    a ++ b = a' ++ b' ↔ a = a' ∧ b = b' :=
  ⟨append_inj, by rintro ⟨rfl, rfl⟩; rfl⟩

/-- A mask that keeps the high `n` bits decides whether they are `x`; the low `m` bits are the operand. -/
theorem append_eq_iff_and_mask {n m : Nat} (x : BitVec n) (y : BitVec m) (v : BitVec (n + m)) :
    x ++ y = v ↔ v &&& (BitVec.allOnes n ++ 0#m) = x ++ 0#m ∧ y = v.extractLsb' 0 m := by
  obtain ⟨hi, lo, rfl⟩ : ∃ (hi : BitVec n) (lo : BitVec m), v = hi ++ lo :=
    ⟨_, _, BitVec.extractLsb'_append_extractLsb'.symm⟩
  simp [BitVec.and_append, append_eq_append_iff, BitVec.extractLsb'_append_eq_right, eq_comm]

/-- Format Z: the mask covers the whole word. -/
theorem append_eq_iff_mask0 (op : BitVec 8) (w : Word) : op ++ 0#24 = w ↔ w &&& 0xFFFFFFFF = op ++ 0#24 := by
  have hmask : w &&& 0xFFFFFFFF = w := BitVec.and_allOnes
  rw [hmask, eq_comm]

/-- Formats I and R: the mask leaves out an operand of 8 bits. -/
theorem append_eq_iff_mask8 (op x : BitVec 8) (w : Word) :
    op ++ (0#16 ++ x) = w ↔ w &&& 0xFFFFFF00 = op ++ 0#24 ∧ x = w.extractLsb' 0 8 := by
  have hword : op ++ (0#16 ++ x) = (op ++ 0#16) ++ x := (BitVec.append_assoc (x₁ := op) (x₂ := 0#16)).symm
  have hmask : (0xFFFFFF00 : Word) = BitVec.allOnes 24 ++ 0#8 := rfl
  have hmatch : op ++ 0#24 = (op ++ 0#16) ++ 0#8 := (BitVec.append_assoc (x₁ := op) (x₂ := 0#16) (x₃ := 0#8)).symm
  rw [hword, hmask, hmatch]
  exact append_eq_iff_and_mask (op ++ 0#16) x w

/-- Formats C and S: the mask leaves out an operand of 16 bits. -/
theorem append_eq_iff_mask16 (op : BitVec 8) (x : BitVec 16) (w : Word) :
    op ++ (0#8 ++ x) = w ↔ w &&& 0xFFFF0000 = op ++ 0#24 ∧ x = w.extractLsb' 0 16 := by
  have hword : op ++ (0#8 ++ x) = (op ++ 0#8) ++ x := (BitVec.append_assoc (x₁ := op) (x₂ := 0#8)).symm
  have hmask : (0xFFFF0000 : Word) = BitVec.allOnes 16 ++ 0#16 := rfl
  have hmatch : op ++ 0#24 = (op ++ 0#8) ++ 0#16 := (BitVec.append_assoc (x₁ := op) (x₂ := 0#8) (x₃ := 0#16)).symm
  rw [hword, hmask, hmatch]
  exact append_eq_iff_and_mask (op ++ 0#8) x w

/-- The row of RDREG, which the register number restricts (R94). -/
theorem decode_eq_rdreg_iff_mask (r : BitVec 8) :
    decode w = .command (.rdreg r) ↔
      w &&& 0xFFFFFF00 = 0x01000000 ∧ r = w.extractLsb' 0 8 ∧ legalRegNum r = true :=
  decode_eq_command_iff.trans ((and_congr_left' (append_eq_iff_mask8 0x01 r w)).trans and_assoc)

/-- Settles O4: a command's word is its opcode and its operand, which the mask of its format parts. -/
theorem opcodeMapSelects : Obligations.OpcodeMapSelects := fun w =>
  ⟨(decode_eq_command_of_wf rfl).trans (append_eq_iff_mask0 0x00 w),
    decode_eq_rdreg_iff_mask,
    (decode_eq_command_of_wf rfl).trans (append_eq_iff_mask0 0x02 w),
    fun id => (decode_eq_command_of_wf rfl).trans (append_eq_iff_mask8 0x10 id w),
    (decode_eq_command_of_wf rfl).trans (append_eq_iff_mask0 0x11 w),
    fun n => (decode_eq_command_of_wf rfl).trans (append_eq_iff_mask16 0x12 n w),
    fun id => (decode_eq_command_of_wf rfl).trans (append_eq_iff_mask8 0x13 id w),
    (decode_eq_command_of_wf rfl).trans (append_eq_iff_mask0 0x20 w),
    fun v => (decode_eq_command_of_wf rfl).trans (append_eq_iff_mask16 0x21 v w),
    (decode_eq_command_of_wf rfl).trans (append_eq_iff_mask0 0x22 w),
    fun id => (decode_eq_command_of_wf rfl).trans (append_eq_iff_mask8 0x30 id w),
    fun id => (decode_eq_command_of_wf rfl).trans (append_eq_iff_mask8 0x31 id w),
    (decoded_cases (decode w)).resolve_left ∘ not_exists.2⟩

/-! ## What the decoder refuses (R95) -/

theorem extractLsb'_eq_of_opField {k : Nat} (h : (opField w).toNat = k) : w.extractLsb' 24 8 = BitVec.ofNat 8 k := by
  rw [← h, BitVec.ofNat_toNat, BitVec.setWidth_eq, opField]

theorem exists_formatZ_eq_illegal : (∃ why, formatZ w i = .illegal why) ↔ w.extractLsb' 0 24 ≠ 0 := by
  simp only [formatZ]; split <;> simp_all

theorem exists_formatI_eq_illegal {f : BitVec 8 → Instr} :
    (∃ why, formatI w f = .illegal why) ↔ w.extractLsb' 8 16 ≠ 0 := by
  simp only [formatI]; split <;> simp_all

theorem exists_formatC_eq_illegal {f : BitVec 16 → Instr} :
    (∃ why, formatC w f = .illegal why) ↔ w.extractLsb' 16 8 ≠ 0 := by
  simp only [formatC]; split <;> simp_all

theorem exists_formatRdreg_eq_illegal :
    (∃ why, formatRdreg w = .illegal why) ↔ w.extractLsb' 8 16 ≠ 0 ∨ ¬ legalRegNum (w.extractLsb' 0 8) = true := by
  simp only [formatRdreg, ← readReg?_isSome]
  split
  · cases readReg? (w.extractLsb' 0 8) <;> simp_all
  · simp_all

theorem legalRegNum_iff {r : BitVec 8} :
    legalRegNum r = true ↔ r ≤ 0x08#8 ∨ (0x10#8 ≤ r ∧ r ≤ 0x14#8) ∨ (0x20#8 ≤ r ∧ r ≤ 0x27#8) := by
  simp [legalRegNum, or_assoc]

end Sys2Proof

namespace Sys2Proof.Machine

open Sys2Proof.Claim

variable {w : Word} {s : State}

/-- R95 lists exactly the words the decoder refuses: (a) is its last arm, (b) and (c) are what the formats refuse. -/
theorem illegalWord_iff_decode : IllegalWord w ↔ ∃ why, decode w = .illegal why := by
  simp only [decode]
  split <;> rename_i hop
  case h_13 =>
    refine iff_of_true (Or.inl fun hmem => ?_) ⟨_, rfl⟩
    simp_all [opField, BitVec.toNat_eq]
  all_goals replace hop := extractLsb'_eq_of_opField hop
  case h_2 => rw [exists_formatRdreg_eq_illegal, legalRegNum_iff]; simp [IllegalWord, hop]
  case h_1 | h_3 | h_5 | h_8 | h_10 => rw [exists_formatZ_eq_illegal]; simp [IllegalWord, hop]
  case h_6 | h_9 => rw [exists_formatC_eq_illegal]; simp [IllegalWord, hop]
  all_goals rw [exists_formatI_eq_illegal]; simp [IllegalWord, hop]

theorem step_of_illegal {why : Illegal} {rest : List PortEvent} (hp : s.port = .command w :: rest)
    (h : decode w = .illegal why) : step s = illegalWord w { s with port := rest } :=
  (step_of_port hp).trans (takeWord_of_illegal h)

/-- Settles O5: a step on a word the decoder refuses is `illegalWord`, in either FAULT. -/
theorem illegalWordsFaultOrDrop : Obligations.IllegalWordsFaultOrDrop := by
  refine ⟨fun w => illegalWord_iff_decode, fun s w rest hp hw => ?_⟩
  obtain ⟨why, hd⟩ := illegalWord_iff_decode.1 hw
  rw [step_of_illegal hp hd]
  exact ⟨fun hf => unlessFaulted_of_clear hf, fun hf => unlessFaulted_of_fault hf⟩

end Sys2Proof.Machine
end

section
/-!
SUPPORT. The generator's commands: the state after `n` chips, which GSTEP, GGEN and GMAT answer in terms of, and the
properties of one step.
-/

namespace Sys2Proof.Machine

open Sys2Proof.Claim

/-! ## One step of the generator (R121, R122, R128) -/

theorem cell_allOnes (i : CellIdx) : cell 0x3FF#10 i = true := by
  have hones : ∀ j < 10, (0x3FF#10).getLsbD j = true := by decide
  exact hones _ (by have := i.property; omega)

theorem genStep_allOnes (c : Cfg) (t : TapPair) : genStep c 0x3FF 0x3FF t = (0x1FF, 0x1FF, true) := by
  have hshift : shiftIn 0x3FF#10 false = 0x1FF#10 := by decide
  simp [genStep, cell_allOnes, hshift]

theorem genStep_chip_of_equal_taps (c : Cfg) (t : TapPair) (ra rb : Reg10) (h : t.t1 = t.t2) :
    (genStep c ra rb t).2.2 = ra.getLsbD 0 := by
  have hout : cell ra outputCell = ra.getLsbD 0 := rfl
  simp [genStep, h, hout]

theorem genStep_ra_of_aTap_output (c : Cfg) (t : TapPair) (ra rb : Reg10) (h : c.aTap.val = 10) :
    (genStep c ra rb t).1 = ra >>> 1 := by
  have htap : c.aTap = outputCell := Subtype.ext h
  simp [genStep, htap, shiftIn]

/-- Settles O19: both feedback bits are 0 from all ones, and a cell that meets itself cancels. -/
theorem genStepProperties : Obligations.GenStepProperties :=
  ⟨genStep_allOnes, genStep_chip_of_equal_taps, genStep_ra_of_aTap_output⟩

/-! ## The state after `n` chips -/

/-- `s` after `n` steps of its generator with the tap pair `t`, their chips emitted. -/
def State.generate (s : State) (t : TapPair) (n : Nat) : State :=
  (s.setGen (Gen.run s.cfg t n s.gen).1).emitChips (Gen.run s.cfg t n s.gen).2

variable {s : State} {t : TapPair}

theorem generate_frame (n : Nat) :
    s.generate t n = { s with
      ra := (s.generate t n).ra, rb := (s.generate t n).rb, chip := (s.generate t n).chip
      chipout := s.chipout ++ (Gen.run s.cfg t n s.gen).2 } := rfl

theorem generate_zero (s : State) (t : TapPair) : s.generate t 0 = s := by
  simp [State.generate, Gen.run, State.setGen, State.emitChips]

theorem ggenBody_eq_generate (ht : s.tapPair? s.id = some t) (n : Nat) : ggenBody n s = .ok (s.generate t n) :=
  ggenBody_eq_ok.2 ⟨t, ht, rfl⟩

/-- The identity has the tap pair `t`, so both sides are what GGEN's body answers. -/
theorem generate_add (ht : s.tapPair? s.id = some t) (a b : Nat) :
    s.generate t (a + b) = (s.generate t a).generate t b := by
  have hbody : ggenBody (a + b) s = ggenBody b (s.generate t a) := ggenBody_add (ggenBody_eq_generate ht a)
  rw [ggenBody_eq_generate ht, ggenBody_eq_generate (s := s.generate t a) ht] at hbody
  exact Except.ok.inj hbody

/-! ## What the commands answer when FAULT = 0 -/

theorem exec_ginit_of_lt {k : BitVec 8} (hf : s.fault = false) (hk : k.toNat < s.cfg.n) :
    exec (.ginit k) s = .next (s.bindGen k) := by
  simp [exec, execGinit, hf, (idInRange_eq_true s k).2 hk]

theorem exec_ggen_of_bound (hf : s.fault = false) (hv : s.gvalid = true) (ht : s.tapPair? s.id = some t)
    (n : BitVec 16) : exec (.ggen n) s = .next (s.generate t n.toNat) := by
  simp [exec, execGgen, ggenTrips, hf, hv, ggenBody_eq_generate ht]

theorem exec_gstep_of_bound (hf : s.fault = false) (hv : s.gvalid = true) (ht : s.tapPair? s.id = some t) :
    exec .gstep s = .next (s.generate t 1) := by
  simp [exec, execGstep, hf, hv, ← ggenBody_one, ggenBody_eq_generate ht]

/-- The row GMAT stores is the chips it would emit if it were GINIT and `L` GSTEPs (R126). -/
theorem exec_gmat_of_lt {k : BitVec 8} (hf : s.fault = false) (hk : k.toNat < s.cfg.n) (ht : s.tapPair? k = some t) :
    exec (.gmat k) s = .next (((s.bindGen k).setGen (Gen.run s.cfg t s.cfg.l (s.bindGen k).gen).1).storeRow k
      (Gen.run s.cfg t s.cfg.l (s.bindGen k).gen).2) := by
  simp [exec, execGmat, hf, (idInRange_eq_true s k).2 hk, gmatBody_eq_ok.2 ⟨t, ht, rfl⟩]

/-- `n` GSTEPs, one after the other. -/
theorem execList_replicate_gstep (hf : s.fault = false) (hv : s.gvalid = true) (ht : s.tapPair? s.id = some t)
    (n : Nat) : execList (List.replicate n .gstep) s = .next (s.generate t n) := by
  induction n generalizing s with
  | zero => rw [generate_zero]; rfl
  | succ n ih =>
    rw [List.replicate_succ, execList, exec_gstep_of_bound hf hv ht, Nat.add_comm, generate_add ht]
    exact ih hf hv ht

/-! ## Their faults -/

theorem idInRange_eq_false {k : BitVec 8} (hk : s.cfg.n ≤ k.toNat) : s.idInRange k = false :=
  decide_eq_false (Nat.not_lt.2 hk)

theorem ginit_faults (hf : s.fault = false) {k : BitVec 8} (hk : s.cfg.n ≤ k.toNat) : Faults (.ginit k) s 2 := by
  simp [Faults, exec, execGinit, hf, idInRange_eq_false hk, enterFault_eq, Cause.code]

theorem gmat_faults (hf : s.fault = false) {k : BitVec 8} (hk : s.cfg.n ≤ k.toNat) : Faults (.gmat k) s 2 := by
  simp [Faults, exec, execGmat, hf, idInRange_eq_false hk, enterFault_eq, Cause.code]

theorem gstep_faults (hf : s.fault = false) (hv : s.gvalid = false) : Faults .gstep s 4 := by
  simp [Faults, exec, execGstep, hf, hv, enterFault_eq, Cause.code]

theorem ggen_faults (hf : s.fault = false) (hv : s.gvalid = false) (n : BitVec 16) : Faults (.ggen n) s 4 := by
  simp [Faults, exec, execGgen, ggenTrips, hf, hv, enterFault_eq, Cause.code]

/-! ## The obligations -/

/-- Settles O20: GINIT answers `State.bindGen`, or it faults. -/
theorem ginitBindsGenerator : Obligations.GinitBindsGenerator :=
  fun _ _ hf => ⟨exec_ginit_of_lt hf, ginit_faults hf⟩

/-- Settles O21: GSTEP answers the state after one chip, whose registers are shifted ones. -/
theorem gstepProducesOneChip : Obligations.GstepProducesOneChip := by
  refine fun s hf => ⟨fun t hv ht => ?_, gstep_faults hf⟩
  rw [exec_gstep_of_bound hf hv ht]
  simp only [State.generate, Gen.run, Gen.advance, genStep, shiftIn_eq_append, State.setGen, State.emitChips, cell,
    outputCell, gen_ra, gen_rb, Bool.xor_assoc, Nat.sub_self]

theorem execList_ggen_pair (hf : s.fault = false) (hv : s.gvalid = true) (ht : s.tapPair? s.id = some t)
    {a b : BitVec 16} (hab : a.toNat + b.toNat ≤ 65535) :
    execList [.ggen a, .ggen b] s = exec (.ggen (a + b)) s := by
  have hsum : (a + b).toNat = a.toNat + b.toNat := BitVec.toNat_add_of_lt (by omega)
  have hb : exec (.ggen b) (s.generate t a.toNat) = .next ((s.generate t a.toNat).generate t b.toNat) :=
    exec_ggen_of_bound (s := s.generate t a.toNat) hf hv ht b
  simp only [execList, exec_ggen_of_bound hf hv ht, hb, hsum, generate_add ht]

/-- Settles O22: GGEN n and n GSTEPs both answer the state after n chips. -/
theorem ggenIsGstepRepeated : Obligations.GgenIsGstepRepeated := by
  refine fun s hf => ⟨fun hv hsome => ?_, fun hv => ggen_faults hf hv⟩
  obtain ⟨t, ht⟩ := Option.isSome_iff_exists.1 hsome
  refine ⟨fun n => ?_, fun a b => execList_ggen_pair hf hv ht⟩
  refine ⟨_, exec_ggen_of_bound hf hv ht n, execList_replicate_gstep hf hv ht _, generate_frame _,
    List.prefix_append _ _, ?_, ?_⟩
  · rw [generate_frame, List.length_append, Gen.length_run]
  · rintro rfl
    exact generate_zero s t

/-- Settles O23: the run starts from all ones, and its chips do not depend on the last chip before it. -/
theorem generationIsDeterministic : Obligations.GenerationIsDeterministic := by
  intro c k n hc hk
  obtain ⟨t, ht⟩ := tapPair?_of_lt (s := State.resetOf c) hc hk
  refine ⟨(Gen.run c t n.toNat (Gen.start false)).2, Gen.length_run _ _, ?_⟩
  rintro s rfl hf
  have hchips : (Gen.run s.cfg t n.toNat (s.bindGen k).gen).2 = (Gen.run s.cfg t n.toNat (Gen.start false)).2 :=
    (Gen.run_chip_irrelevant _ (s.bindGen k).gen (Gen.start false) rfl rfl).1
  refine ⟨(s.bindGen k).generate t n.toNat, ?_, congrArg (s.chipout ++ ·) hchips⟩
  have hgen : exec (.ggen n) (s.bindGen k) = .next ((s.bindGen k).generate t n.toNat) :=
    exec_ggen_of_bound (s := s.bindGen k) hf rfl ht n
  simp only [genseq, execList, exec_ginit_of_lt hf hk, hgen]

theorem codeAt?_storeRow_same (s : State) (id : BitVec 8) (row : List Bool) (k : Nat) :
    (s.storeRow id row).codeAt? id.toNat k = row[k]? := by
  simp [State.codeAt?, Memory.read_write_same]

theorem codeAt?_storeRow_other (s : State) (id : BitVec 8) (row : List Bool) {j : Nat} (k : Nat) (h : j ≠ id.toNat) :
    (s.storeRow id row).codeAt? j k = s.codeAt? j k := by
  simp [State.codeAt?, Memory.read_write_other _ _ _ _ h]

/-- Settles O24: GMAT stores the run that GINIT and `L` GSTEPs emit. -/
theorem gmatMaterialisesRow : Obligations.GmatMaterialisesRow := by
  refine fun s k hf => ⟨fun hc hk => ?_, gmat_faults hf⟩
  obtain ⟨t, ht⟩ := tapPair?_of_lt hc hk
  have hsteps : execList (.ginit k :: List.replicate s.cfg.l .gstep) s =
      .next ((s.bindGen k).generate t s.cfg.l) := by
    rw [execList, exec_ginit_of_lt hf hk]
    exact execList_replicate_gstep (s := s.bindGen k) hf rfl ht _
  exact ⟨_, _, _, exec_gmat_of_lt hf hk ht, hsteps, rfl, Gen.length_run _ _, rfl, codeAt?_storeRow_same _ _ _,
    fun _ k' h => codeAt?_storeRow_other _ _ _ k' h, getLsbD_setValid _ _⟩

end Sys2Proof.Machine
end

section
/-!
SUPPORT. The sample buffer: what SCLR, SPUSH and ROT answer, and the state after `p` ROTs.
-/

namespace Sys2Proof.Machine

open Sys2Proof.Claim

variable {s : State} {xs : List Sample}

/-! ## SCLR and SPUSH -/

theorem exec_sclr_of_clear (hf : s.fault = false) : exec .sclr s = .next s.clearBuffer := unlessFaulted_of_clear hf

/-- Settles O27: SCLR answers `State.clearBuffer`. -/
theorem sclrEmptiesBuffer : Obligations.SclrEmptiesBuffer :=
  fun _ hf => ⟨_, exec_sclr_of_clear hf, rfl, fun _ => rfl⟩

theorem exec_spush_of_lt (hf : s.fault = false) (hl : s.slen.toNat < s.cfg.l) (v : Sample) :
    exec (.spush v) s = .next (s.pushSample v) := by
  simp [exec, execSpush, hf, hl]

theorem spush_faults (hf : s.fault = false) (hl : s.cfg.l ≤ s.slen.toNat) (v : Sample) : Faults (.spush v) s 3 := by
  simp [Faults, exec, execSpush, hf, Nat.not_lt.2 hl, enterFault_eq, Cause.code]

/-- `SLEN` has room for `L` itself. -/
theorem toNat_slen_pushSample (hc : s.cfg.OK) (hl : s.slen.toNat < s.cfg.l) (v : Sample) :
    (s.pushSample v).slen.toNat = s.slen.toNat + 1 := by
  have hle := hc.l_le
  exact BitVec.toNat_add_of_lt (by simp; omega)

theorem sampAt?_pushSample_same (s : State) (v : Sample) : (s.pushSample v).sampAt? s.slen.toNat = some v :=
  Memory.read_write_same _ _ _

theorem sampAt?_pushSample_other (s : State) (v : Sample) {j : Nat} (h : j ≠ s.slen.toNat) :
    (s.pushSample v).sampAt? j = s.sampAt? j :=
  Memory.read_write_other _ _ _ _ h

/-- Settles O28: SPUSH answers `State.pushSample`, or it faults. -/
theorem spushAppendsSample : Obligations.SpushAppendsSample := fun s v hf =>
  ⟨fun hl hc => ⟨_, exec_spush_of_lt hf hl v, rfl, toNat_slen_pushSample hc hl v, sampAt?_pushSample_same s v,
    fun _ => sampAt?_pushSample_other s v⟩, fun hl => spush_faults hf hl v⟩

/-! ## ROT -/

theorem exec_rot_of_row (hf : s.fault = false) (hl : s.slen.toNat = s.cfg.l) (hx : s.sampRow? = some xs) :
    exec .rot s = .next (s.rotated xs) := by
  simp [exec, execRot, hf, (sfull_eq_true s).2 hl, rotBody_eq_ok.2 ⟨xs, hx, rfl⟩]

theorem rot_faults (hf : s.fault = false) (hl : s.slen.toNat ≠ s.cfg.l) : Faults .rot s 3 := by
  simp [Faults, exec, execRot, hf, State.sfull, hl, enterFault_eq, Cause.code]

theorem sampAt?_of_row (hx : s.sampRow? = some xs) (j : Nat) : s.sampAt? j = xs[j]? := by
  rw [State.sampAt?, (sampRow?_eq_some.1 hx).1, Memory.read_ofList]

theorem getElem?_rotateList_zero (xs : List Sample) : (rotateList xs)[0]? = xs[xs.length - 1]? := by
  rcases xs.eq_nil_or_concat with rfl | ⟨ys, y, rfl⟩ <;> simp [rotateList]

theorem getElem?_rotateList_succ {j : Nat} (h : j + 1 < xs.length) : (rotateList xs)[j + 1]? = xs[j]? := by
  rcases xs.eq_nil_or_concat with rfl | ⟨ys, y, rfl⟩
  · simp at h
  · have hj : j < ys.length := by simpa using h
    simp [rotateList, List.getElem?_append_left hj]

/-- Settles O29: ROT answers `State.rotated` of the buffer's samples, or it faults. -/
theorem rotMovesLastToFront : Obligations.RotMovesLastToFront := by
  refine fun s hf => ⟨fun h hl => ?_, rot_faults hf⟩
  obtain ⟨xs, hx⟩ := h.exists_sampRow hl
  have hlen : xs.length = s.cfg.l := (sampRow?_eq_some.1 hx).2
  have hread : ∀ j, (s.rotated xs).sampAt? j = (rotateList xs)[j]? := sampAt?_of_row (rotated_sampRow? hlen)
  refine ⟨_, exec_rot_of_row hf hl hx, rfl, toNat_nextPhase h.cfg_ok _, ?front, fun j h1 hj => ?behind,
    fun j hj => ?outside⟩
  case front => rw [hread, getElem?_rotateList_zero, sampAt?_of_row hx, hlen]
  case behind =>
    obtain ⟨i, rfl⟩ := Nat.exists_eq_add_of_le' h1
    rw [hread, getElem?_rotateList_succ (by rwa [hlen]), sampAt?_of_row hx, Nat.add_sub_cancel]
  case outside => rw [hread, List.getElem?_eq_none (by rwa [length_rotateList, hlen])]

/-! ## Many ROTs -/

/-- `s`, whose buffer holds `xs`, after `p` ROTs. -/
def State.rotatedBy (s : State) (p : Nat) (xs : List Sample) : State :=
  { s with samp := Memory.ofList (rotateList^[p] xs), phase := (nextPhase s.cfg)^[p] s.phase }

theorem rotatedBy_zero (hx : s.sampRow? = some xs) : s.rotatedBy 0 xs = s := by
  simp only [State.rotatedBy, Function.iterate_zero, id_eq, ← (sampRow?_eq_some.1 hx).1]

theorem rotatedBy_succ (s : State) (p : Nat) (xs : List Sample) :
    s.rotatedBy (p + 1) xs = (s.rotated xs).rotatedBy p (rotateList xs) := rfl

theorem sampRow?_rotatedBy (hl : xs.length = s.cfg.l) (p : Nat) :
    (s.rotatedBy p xs).sampRow? = some (rotateList^[p] xs) :=
  sampRow?_eq_some.2 ⟨rfl, (length_iterate_rotateList p xs).trans hl⟩

/-- `p` ROTs, one after the other. -/
theorem execList_replicate_rot (hf : s.fault = false) (hl : s.slen.toNat = s.cfg.l) (hx : s.sampRow? = some xs)
    (p : Nat) : execList (List.replicate p .rot) s = .next (s.rotatedBy p xs) := by
  induction p generalizing s xs with
  | zero => rw [rotatedBy_zero hx]; rfl
  | succ p ih =>
    rw [List.replicate_succ, execList, exec_rot_of_row hf hl hx, rotatedBy_succ]
    exact ih (s := s.rotated xs) hf hl (rotated_sampRow? (sampRow?_eq_some.1 hx).2)

theorem toNat_phase_rotatedBy (h : s.Inv) (p : Nat) (xs : List Sample) :
    (s.rotatedBy p xs).phase.toNat = (s.phase.toNat + p) % s.cfg.l := by
  change ((nextPhase s.cfg)^[p] s.phase).toNat = _
  induction p with
  | zero => exact (Nat.mod_eq_of_lt h.phase_lt).symm
  | succ p ih => rw [Function.iterate_succ_apply', toNat_nextPhase h.cfg_ok, ih, Nat.mod_add_mod, Nat.add_assoc]

/-- A full turn restores the buffer and PHASE (R143). -/
theorem rotatedBy_full_turn (h : s.Inv) (hx : s.sampRow? = some xs) : s.rotatedBy s.cfg.l xs = s := by
  obtain ⟨hsamp, hlen⟩ := sampRow?_eq_some.1 hx
  have hbuf : (s.rotatedBy s.cfg.l xs).samp = s.samp := by
    rw [State.rotatedBy, ← hlen, iterate_rotateList_length, hsamp]
  have hphase : (s.rotatedBy s.cfg.l xs).phase = s.phase := BitVec.eq_of_toNat_eq <| by
    rw [toNat_phase_rotatedBy h, Nat.add_mod_right, Nat.mod_eq_of_lt h.phase_lt]
  calc s.rotatedBy s.cfg.l xs
      = { s with samp := (s.rotatedBy s.cfg.l xs).samp, phase := (s.rotatedBy s.cfg.l xs).phase } := rfl
    _ = s := by rw [hbuf, hphase]

/-- Settles O30: `p` ROTs answer `State.rotatedBy`, which after `L` of them is the state itself. -/
theorem rotationAlgebra : Obligations.RotationAlgebra := by
  intro s p h hf hl
  obtain ⟨xs, hx⟩ := h.exists_sampRow hl
  have hlen : xs.length = s.cfg.l := (sampRow?_eq_some.1 hx).2
  have hrots := execList_replicate_rot hf hl hx
  refine ⟨⟨_, hrots p, rfl, toNat_phase_rotatedBy h p xs, fun j hj => ?_⟩, ?_⟩
  · rw [sampAt?_of_row (sampRow?_rotatedBy hlen p), getElem?_iterate_rotateList p j xs (by rwa [hlen]), hlen,
      sampAt?_of_row hx]
  · rw [hrots, rotatedBy_full_turn h hx]

end Sys2Proof.Machine
end

section
/-!
SUPPORT. The correlator: the class of a sum by the scaled thresholds, the sum as the statements write it, and what
CORR answers, or faults with.
-/

namespace Sys2Proof.Machine

open Sys2Proof.Claim

/-! ## The class of a sum (R154) -/

section

variable {c : Cfg} {a : Int}

theorem classify_tdiv (hc : c.OK) (a : Int) : classify c (tdiv a c.f) = classOfSum c a := by
  simp only [classify, classOfSum, ge_iff_le, le_tdiv_iff hc.f_pos hc.thrHi_pos, tdiv_le_iff hc.f_pos hc.thrLo_neg]

theorem classOfSum_cases (c : Cfg) (a : Int) :
    classOfSum c a = 0b11 ∨ classOfSum c a = 0b10 ∨ classOfSum c a = 0b00 := by
  unfold classOfSum
  split
  · exact .inl rfl
  · split
    · exact .inr (.inl rfl)
    · exact .inr (.inr rfl)

theorem classOfSum_eq_11_iff : classOfSum c a = 0b11 ↔ c.thrHi * c.f ≤ a := by
  by_cases hhi : c.thrHi * c.f ≤ a
  · simp [classOfSum, hhi]
  · by_cases hlo : a ≤ c.thrLo * c.f <;> simp [classOfSum, hhi, hlo]

/-- The scaled thresholds lie on both sides of 0. -/
theorem scaled_thresholds (hc : c.OK) : c.thrLo * c.f < c.thrHi * c.f :=
  Int.mul_lt_mul_of_pos_right (lt_of_le_of_lt hc.thrLo_neg (by have := hc.thrHi_pos; omega))
    (by exact_mod_cast hc.f_pos)

theorem classOfSum_eq_10_iff (hc : c.OK) : classOfSum c a = 0b10 ↔ a ≤ c.thrLo * c.f := by
  have hthr := scaled_thresholds hc
  by_cases hlo : a ≤ c.thrLo * c.f
  · have hhi : ¬ c.thrHi * c.f ≤ a := by omega
    simp [classOfSum, hhi, hlo]
  · by_cases hhi : c.thrHi * c.f ≤ a <;> simp [classOfSum, hhi, hlo]

/-- Settles O34: the truncated quotient reaches a threshold exactly when the sum reaches `F` times it. -/
theorem classificationWithoutDivision : Obligations.ClassificationWithoutDivision := by
  have href : Cfg.ref.OK := by constructor <;> decide
  refine ⟨fun c a hc => classify_tdiv hc a, fun a => ?_⟩
  rw [classify_tdiv href]
  exact ⟨classOfSum_eq_11_iff, classOfSum_eq_10_iff href⟩

end

/-! ## The sum (R151) -/

theorem corrSum_eq_sum {row : List Bool} {xs : List Sample} (h : row.length = xs.length) :
    corrSum row xs = ((List.range xs.length).map fun j => chipSign row[j]? * sampleValue xs[j]?).sum := by
  induction xs generalizing row with
  | nil => cases row <;> rfl
  | cons x xs ih =>
    obtain ⟨c, cs, rfl⟩ := List.exists_cons_of_length_eq_add_one h
    have hsign : chipSign (some c) = sgn c := by cases c <;> rfl
    rw [corrSum, ih (Nat.succ.inj h), List.length_cons, List.range_succ_eq_map, List.map_cons, List.map_map,
      List.sum_cons]
    exact congrArg₂ (· + ·) (congrArg (· * x.toInt) hsign.symm) rfl

variable {s t : State} {k : BitVec 8} {row : List Bool} {xs : List Sample}

theorem codeAt?_of_row (hr : s.codeRow? k = some row) (j : Nat) : s.codeAt? k.toNat j = row[j]? := by
  simp [State.codeAt?, (codeRow?_eq_some.1 hr).1]

/-- The sum `p` rotations on is the sum over the buffer rotated `p` times (R157). -/
theorem sumAt_eq_corrSum (hr : s.codeRow? k = some row) (hx : s.sampRow? = some xs) (p : Nat) :
    sumAt s k p = corrSum row (rotateList^[p] xs) := by
  have hrow : row.length = s.cfg.l := (codeRow?_eq_some.1 hr).2
  have hxs : xs.length = s.cfg.l := (sampRow?_eq_some.1 hx).2
  have hrot : (rotateList^[p] xs).length = s.cfg.l := (length_iterate_rotateList p xs).trans hxs
  rw [corrSum_eq_sum (hrow.trans hrot.symm), hrot, sumAt]
  refine congrArg List.sum (List.map_congr_left fun j hj => ?_)
  rw [codeAt?_of_row hr, sampAt?_of_row hx, getElem?_iterate_rotateList p j xs (hxs ▸ List.mem_range.1 hj), hxs]

/-- With no rotation the sum meets position `j` of the row with position `j` of the buffer. -/
theorem sumAt_zero (s : State) (k : BitVec 8) : sumAt s k 0 =
    ((List.range s.cfg.l).map fun j => chipSign (s.codeAt? k.toNat j) * sampleValue (s.sampAt? j)).sum := by
  refine congrArg List.sum (List.map_congr_left fun j hj => ?_)
  rw [Nat.zero_mod, Nat.sub_zero, Nat.add_mod_right, Nat.mod_eq_of_lt (List.mem_range.1 hj)]

/-- A state that meets CORR's preconditions has its operands. -/
theorem exists_operands_of_ready (h : ReadyFor s k) : ∃ row xs, s.codeRow? k = some row ∧ s.sampRow? = some xs := by
  obtain ⟨hinv, -, -, hl, hv⟩ := h
  obtain ⟨row, xs, hr, hx, -⟩ := exists_corrOperands hinv hl hv
  exact ⟨row, xs, hr, hx⟩

/-- Every sum of a state that is ready is held exactly by `ACC` (R151). -/
theorem sumAt_fits (h : ReadyFor s k) (p : Nat) : -(2 ^ 25) ≤ sumAt s k p ∧ sumAt s k p ≤ 2 ^ 25 := by
  obtain ⟨row, xs, hr, hx⟩ := exists_operands_of_ready h
  rw [sumAt_eq_corrSum hr hx]
  exact corrSum_fits _ _ (by
    rw [length_iterate_rotateList, (sampRow?_eq_some.1 hx).2]
    exact h.1.cfg_ok.l_le)

theorem toInt_acc_setCorr_sumAt (h : ReadyFor s k) (p : Nat) : (s.setCorr (sumAt s k p)).acc.toInt = sumAt s k p :=
  toInt_ofInt27 (sumAt_fits h p).1 (sumAt_fits h p).2

/-! ## The tests CORR and DECODE share -/

/-- CORR and DECODE of `k` are these tests in front of a body. -/
def correlatorTests (i : Instr) (k : BitVec 8) (s : State) (body : Result) : Result :=
  unlessFaulted s <| require (s.idInRange k) .idRange (encode i) s <| require s.sfull .lenMismatch (encode i) s <|
    require (s.rowValid k) .noCode (encode i) s body

theorem exec_corr_eq (k : BitVec 8) (s : State) :
    exec (.corr k) s = correlatorTests (.corr k) k s (finish (corrBody k s)) := rfl

theorem exec_decode_eq (k : BitVec 8) (s : State) :
    exec (.decode k) s = correlatorTests (.decode k) k s (finish (decodeLoop k s.cfg.l s)) := rfl

theorem correlatorTests_of_ready (h : ReadyFor s k) (i : Instr) (body : Result) :
    correlatorTests i k s body = body := by
  obtain ⟨-, hf, hk, hl, hv⟩ := h
  simp [correlatorTests, hf, (idInRange_eq_true s k).2 hk, (sfull_eq_true s).2 hl, State.rowValid, hv]

/-- The faults of CORR and DECODE, in the order of their tests (R156, R157, R184). -/
theorem faults_of_correlatorTests {i : Instr} {body : Result} (e : exec i s = correlatorTests i k s body)
    (hf : s.fault = false) :
    (s.cfg.n ≤ k.toNat → Faults i s 2) ∧
    (k.toNat < s.cfg.n → s.slen.toNat ≠ s.cfg.l → Faults i s 3) ∧
    (k.toNat < s.cfg.n → s.slen.toNat = s.cfg.l → s.cvalid.getLsbD k.toNat = false → Faults i s 5) := by
  refine ⟨fun hk => ?idRange, fun hk hl => ?lenMismatch, fun hk hl hv => ?noCode⟩ <;>
    rw [Faults, e, correlatorTests, unlessFaulted_of_clear hf]
  case idRange => simp [idInRange_eq_false hk, enterFault_eq, Cause.code]
  case lenMismatch => simp [(idInRange_eq_true s k).2 hk, State.sfull, hl, enterFault_eq, Cause.code]
  case noCode =>
    simp [(idInRange_eq_true s k).2 hk, (sfull_eq_true s).2 hl, State.rowValid, hv, enterFault_eq, Cause.code]

/-! ## CORR -/

theorem exec_corr_of_ready (h : ReadyFor s k) : exec (.corr k) s = .next (s.setCorr (sumAt s k 0)) := by
  obtain ⟨row, xs, hr, hx⟩ := exists_operands_of_ready h
  rw [exec_corr_eq, correlatorTests_of_ready h, finish_eq_next, sumAt_eq_corrSum hr hx]
  exact corrBody_eq_ok.2 ⟨row, xs, hr, hx, rfl⟩

/-- The invariants hold of what a command answers. -/
theorem inv_of_exec {i : Instr} (h : s.Inv) (e : exec i s = .next t) : t.Inv := by
  obtain ⟨u, e', hu, -⟩ := answersInv_exec h i
  rw [e] at e'
  cases e'
  exact hu

theorem cls_eq_classOfSum (h : s.Inv) : s.cls = classOfSum s.cfg s.acc.toInt := by
  rw [h.cls_eq, h.score_eq, classify_tdiv h.cfg_ok]

/-- Settles O35: CORR answers `State.setCorr` of the exact sum, and R41 relates SCORE and CLASS to it. -/
theorem corrComputesScore : Obligations.CorrComputesScore := by
  refine ⟨fun s k h => ?_, fun s k hf => faults_of_correlatorTests (exec_corr_eq k s) hf⟩
  have hexec := exec_corr_of_ready h
  have hinv := inv_of_exec h.1 hexec
  have hacc := toInt_acc_setCorr_sumAt h 0
  obtain ⟨hge, hle⟩ := sumAt_fits h 0
  exact ⟨_, hexec, rfl, hacc.trans (sumAt_zero s k), hge.trans_eq hacc.symm, hacc.trans_le hle, hinv.score_eq,
    hinv.cls_eq⟩

/-! ## A buffer made of the row (R160) -/

theorem chipSign_mul_sampleValue {c : Bool} {x : Sample} {K : Int} (hx : x.toInt = if c = true then K else -K) :
    chipSign (some c) * sampleValue (some x) = K := by
  cases c <;> simp [chipSign, sampleValue, hx]

/-- Every position of a buffer of `K` times the row's signs adds `K`. -/
theorem sumAt_zero_of_matching {K : Int} (hbuf : ∀ j < s.cfg.l, ∃ c x, s.codeAt? k.toNat j = some c ∧
    s.sampAt? j = some x ∧ x.toInt = if c = true then K else -K) : sumAt s k 0 = K * s.cfg.l := by
  have hterm : ∀ j ∈ List.range s.cfg.l, chipSign (s.codeAt? k.toNat j) * sampleValue (s.sampAt? j) = K := by
    intro j hj
    obtain ⟨c, x, hc, hx, hval⟩ := hbuf j (List.mem_range.1 hj)
    rw [hc, hx, chipSign_mul_sampleValue hval]
  rw [sumAt_zero, List.map_congr_left hterm]
  simp [mul_comm]

theorem execList_append_of_next {is js : List Instr} (e : execList is s = .next t) :
    execList (is ++ js) s = execList js t := by
  induction is generalizing s with
  | nil => cases e; rfl
  | cons i is ih =>
    simp only [List.cons_append, execList] at e ⊢
    split at e
    · exact ih e
    · cases e
    · cases e

/-- CORR after a full turn of the buffer is CORR (R143, R160). -/
theorem execList_full_turn_corr (h : ReadyFor s k) :
    execList (List.replicate s.cfg.l .rot ++ [.corr k]) s = exec (.corr k) s := by
  have hturn : execList (List.replicate s.cfg.l .rot) s = .next s := (rotationAlgebra s 0 h.1 h.2.1 h.2.2.2.1).2
  rw [execList_append_of_next hturn, execList, exec_corr_of_ready h]
  rfl

/-- Settles O39: every position adds `K`, so the sum is `K * L`. -/
theorem correlationRoundTrip : Obligations.CorrelationRoundTrip := by
  intro s k K h _ _ hbuf
  have hexec := exec_corr_of_ready h
  have hinv := inv_of_exec h.1 hexec
  have hacc : (s.setCorr (sumAt s k 0)).acc.toInt = K * s.cfg.l :=
    (toInt_acc_setCorr_sumAt h 0).trans (sumAt_zero_of_matching hbuf)
  have hcls : (s.setCorr (sumAt s k 0)).cls = classOfSum s.cfg (K * s.cfg.l) := hacc ▸ cls_eq_classOfSum hinv
  refine ⟨_, hexec, hacc, ?_, ?_, (execList_full_turn_corr h).trans hexec⟩
  · rw [hcls, classOfSum_eq_11_iff]
  · rw [hcls, classOfSum_eq_10_iff h.1.cfg_ok]

end Sys2Proof.Machine
end

section
/-!
SUPPORT. DECODE: the state after `n` iterations of its loop in closed form, and the independence of two scans.
-/

namespace Sys2Proof.Machine

open Sys2Proof.Claim

variable {s t : State} {k : BitVec 8} {row : List Bool} {xs : List Sample}

/-! ## The report (R157, R99) -/

theorem resultWord_eq (bit : Bool) (id : BitVec 8) (phase : BitVec 10) :
    resultWord bit id phase = (if bit then 0x01#8 else 0x00#8) ++ id ++ BitVec.ofNat 16 phase.toNat := by
  rw [resultWord, BitVec.ofNat_toNat]
  cases bit <;> rfl

/-- After CORR's body the report appends the word of the sum, if its class is determined. -/
theorem report_setCorr (hc : s.cfg.OK) (k : BitVec 8) (a : Int) :
    (s.setCorr a).report k =
      { s.setCorr a with resout := s.resout ++ (reportOf s.cfg k s.phase.toNat a).toList } := by
  have hcls : (s.setCorr a).cls = classOfSum s.cfg a := classify_tdiv hc a
  rw [State.report, hcls, reportOf]
  rcases classOfSum_cases s.cfg a with h | h | h <;>
    simp [h, classDetermined, classBit, State.emitResult, resultWord_eq, State.setCorr]

/-! ## The state after `n` iterations -/

/-- The result words of the next `n` phases of a DECODE of `k`. -/
def State.phaseWords (s : State) (k : BitVec 8) (n : Nat) : List Word :=
  (List.range n).filterMap fun p => reportOf s.cfg k ((s.phase.toNat + p) % s.cfg.l) (sumAt s k p)

theorem phaseWords_succ (s : State) (k : BitVec 8) (n : Nat) :
    s.phaseWords k (n + 1) =
      s.phaseWords k n ++ (reportOf s.cfg k ((s.phase.toNat + n) % s.cfg.l) (sumAt s k n)).toList := by
  rw [State.phaseWords, List.range_succ, List.filterMap_append]
  cases h : reportOf s.cfg k ((s.phase.toNat + n) % s.cfg.l) (sumAt s k n) <;> simp [State.phaseWords, h]

/-- `s` with ACC, SCORE and CLASS of the last of `n` phases; as they were when `n` is 0. -/
def State.lastCorr (s : State) (k : BitVec 8) : Nat → State
  | 0 => s
  | n + 1 => s.setCorr (sumAt s k n)

/-- `s`, whose buffer holds `xs`, after `n` iterations of DECODE `k`. -/
def State.scanned (s : State) (k : BitVec 8) (xs : List Sample) (n : Nat) : State :=
  { (s.lastCorr k n).rotatedBy n xs with resout := s.resout ++ s.phaseWords k n }

theorem lastCorr_frame (s : State) (k : BitVec 8) (n : Nat) : s.lastCorr k n =
    { s with acc := (s.lastCorr k n).acc, score := (s.lastCorr k n).score, cls := (s.lastCorr k n).cls } := by
  cases n <;> rfl

theorem scanned_frame (s : State) (k : BitVec 8) (xs : List Sample) (n : Nat) : s.scanned k xs n =
    { s.rotatedBy n xs with
      acc := (s.lastCorr k n).acc, score := (s.lastCorr k n).score, cls := (s.lastCorr k n).cls
      resout := s.resout ++ s.phaseWords k n } := by
  rw [State.scanned, lastCorr_frame]
  rfl

theorem scanned_zero (hx : s.sampRow? = some xs) (k : BitVec 8) : s.scanned k xs 0 = s := by
  change { s.rotatedBy 0 xs with resout := s.resout ++ [] } = s
  rw [rotatedBy_zero hx, List.append_nil]

/-- One more iteration: the sum of phase `n`, its report, one more rotation. -/
theorem decodeIteration_scanned (h : s.Inv) (hr : s.codeRow? k = some row) (hx : s.sampRow? = some xs) (n : Nat) :
    decodeIteration k (s.scanned k xs n) = .ok (s.scanned k xs (n + 1)) := by
  have hrow : (s.scanned k xs n).codeRow? k = some row := by rw [scanned_frame]; exact hr
  have hbuf : (s.scanned k xs n).sampRow? = some (rotateList^[n] xs) := by
    rw [scanned_frame]; exact sampRow?_rotatedBy (sampRow?_eq_some.1 hx).2 n
  have hcfg : (s.scanned k xs n).cfg = s.cfg := by rw [scanned_frame]; rfl
  have hphase : (s.scanned k xs n).phase.toNat = (s.phase.toNat + n) % s.cfg.l := by
    rw [scanned_frame]; exact toNat_phase_rotatedBy h n xs
  refine decodeIteration_eq_ok.2 ⟨row, _, hrow, hbuf, ?_⟩
  rw [← sumAt_eq_corrSum hr hx, report_setCorr (hcfg ▸ h.cfg_ok), hphase, hcfg, scanned_frame s k xs n]
  simp [State.scanned, State.lastCorr, State.rotatedBy, State.rotated, State.setCorr, phaseWords_succ,
    Function.iterate_succ_apply']

/-- The last iteration of DECODE's loop taken off. -/
theorem decodeLoop_succ_of_ok {n : Nat} (e : decodeLoop k n s = .ok t) :
    decodeLoop k (n + 1) s = decodeIteration k t := by
  induction n generalizing s with
  | zero =>
    cases e
    rw [decodeLoop]
    cases decodeIteration k t <;> rfl
  | succ n ih =>
    rw [decodeLoop] at e ⊢
    split at e
    · exact ih e
    · cases e

theorem decodeLoop_eq_scanned (h : s.Inv) (hr : s.codeRow? k = some row) (hx : s.sampRow? = some xs) (n : Nat) :
    decodeLoop k n s = .ok (s.scanned k xs n) := by
  induction n with
  | zero => rw [scanned_zero hx]; rfl
  | succ n ih => rw [decodeLoop_succ_of_ok ih, decodeIteration_scanned h hr hx]

/-! ## DECODE -/

/-- What DECODE of `k` answers: the registers of the last phase and a word for every determined one (R157). -/
def State.decoded (s : State) (k : BitVec 8) : State :=
  { s.setCorr (sumAt s k (s.cfg.l - 1)) with resout := s.resout ++ s.phaseWords k s.cfg.l }

/-- After as many iterations as there are positions the buffer and PHASE have made a full turn. -/
theorem scanned_full_turn (h : s.Inv) (hx : s.sampRow? = some xs) (k : BitVec 8) :
    s.scanned k xs s.cfg.l = s.decoded k := by
  have hlast : s.lastCorr k s.cfg.l = s.setCorr (sumAt s k (s.cfg.l - 1)) := by
    obtain ⟨m, hm⟩ := Nat.exists_eq_add_of_le' h.cfg_ok.l_pos
    rw [hm]
    rfl
  rw [scanned_frame, rotatedBy_full_turn h hx, hlast]
  rfl

theorem exec_decode_of_ready (h : ReadyFor s k) : exec (.decode k) s = .next (s.decoded k) := by
  obtain ⟨row, xs, hr, hx⟩ := exists_operands_of_ready h
  rw [exec_decode_eq, correlatorTests_of_ready h, finish_eq_next, decodeLoop_eq_scanned h.1 hr hx,
    scanned_full_turn h.1 hx]

/-- Settles O37: DECODE answers `State.decoded`, and R41 relates SCORE and CLASS to ACC. -/
theorem decodeReportsDeterminedPhases : Obligations.DecodeReportsDeterminedPhases := by
  refine ⟨fun s k h => ?_, fun s k hf => faults_of_correlatorTests (exec_decode_eq k s) hf⟩
  have hexec := exec_decode_of_ready h
  have hinv := inv_of_exec h.1 hexec
  exact ⟨_, hexec, rfl, rfl, toInt_acc_setCorr_sumAt h _, hinv.score_eq, cls_eq_classOfSum hinv⟩

/-! ## Two scans (R159) -/

/-- DECODE writes nothing that the preconditions of another DECODE look at. -/
theorem readyFor_decoded {a b : BitVec 8} (ha : ReadyFor s a) (hb : ReadyFor s b) : ReadyFor (s.decoded a) b :=
  ⟨inv_of_exec ha.1 (exec_decode_of_ready ha), hb.2⟩

/-- DECODE writes nothing that the words of another DECODE depend on. -/
theorem phaseWords_decoded (s : State) (a b : BitVec 8) (n : Nat) :
    (s.decoded a).phaseWords b n = s.phaseWords b n := rfl

/-- Settles O38: the words of DECODE b are `State.phaseWords`, which DECODE a leaves as they are. -/
theorem identitiesAreIndependent : Obligations.IdentitiesAreIndependent := by
  intro s a b ha hb
  have hab : exec (.decode b) (s.decoded a) = .next ((s.decoded a).decoded b) :=
    exec_decode_of_ready (readyFor_decoded ha hb)
  exact ⟨_, _, _, s.phaseWords b s.cfg.l, exec_decode_of_ready ha, hab, exec_decode_of_ready hb,
    ⟨rfl, rfl, rfl, rfl, rfl, rfl, rfl, rfl, rfl⟩,
    congrArg ((s.decoded a).resout ++ ·) (phaseWords_decoded s a b s.cfg.l), rfl⟩

end Sys2Proof.Machine
end

section
/-!
SUPPORT. NOP (R170).
-/

namespace Sys2Proof.Machine

/-- NOP is not under `unlessFaulted`, so there is one answer for both values of FAULT. -/
theorem exec_nop (s : State) : exec .nop s = .next s := rfl

/-- Settles O41: NOP answers the state it is given, channels and FAULT included. -/
theorem nopChangesNothing : Obligations.NopChangesNothing := by
  intro s
  exact exec_nop s

end Sys2Proof.Machine
end

section
/-!
SUPPORT. Faults: what a step does to FAULT, CAUSE and FCMD (R186 to R189), which commands a standing fault drops (R188),
and the order of a command's tests (R184).
-/

namespace Sys2Proof.Machine

open Sys2Proof.Claim

variable {s t : State} {i : Instr} {w : Word} {k : BitVec 8} {rest : List PortEvent}

/-! ## What a step does to FAULT, CAUSE and FCMD -/

/-- `t` has the diagnostic registers of `s`. -/
def SameDiagnostics (s t : State) : Prop := t.fault = s.fault ∧ t.cause = s.cause ∧ t.fcmd = s.fcmd

/-- The port events that end in a reset (R189, R210, R228). -/
def PortEvent.Resets (e : PortEvent) : Prop :=
  e = .rst ∨ (∃ w k, e = .commandThenRst w k) ∨ ∃ w, e = .command w ∧ decode w = .command .srst

/-- The own effect of a command other than SRST writes no diagnostic register. -/
theorem sameDiagnostics_of_effect (h : Effect i s t) : (i = .srst ∧ t = s.toReset) ∨ SameDiagnostics s t := by
  cases i with
  | srst => exact .inl ⟨rfl, h⟩
  | nop => obtain rfl := h; exact .inr ⟨rfl, rfl, rfl⟩
  | rdreg r => obtain ⟨_, _, rfl⟩ := h; exact .inr ⟨rfl, rfl, rfl⟩
  | sclr => obtain ⟨_, rfl⟩ := h; exact .inr ⟨rfl, rfl, rfl⟩
  | ginit k | spush v => obtain ⟨_, _, rfl⟩ := h; exact .inr ⟨rfl, rfl, rfl⟩
  | gstep =>
    obtain ⟨_, _, e⟩ := h
    obtain ⟨_, _, rfl⟩ := gstepBody_eq_ok.1 e
    exact .inr ⟨rfl, rfl, rfl⟩
  | ggen n =>
    obtain ⟨_, _, e⟩ := h
    obtain ⟨_, _, rfl⟩ := ggenBody_eq_ok.1 e
    exact .inr ⟨rfl, rfl, rfl⟩
  | gmat k =>
    obtain ⟨_, _, e⟩ := h
    obtain ⟨_, _, rfl⟩ := gmatBody_eq_ok.1 e
    exact .inr ⟨rfl, rfl, rfl⟩
  | rot =>
    obtain ⟨_, _, e⟩ := h
    obtain ⟨_, _, rfl⟩ := rotBody_eq_ok.1 e
    exact .inr ⟨rfl, rfl, rfl⟩
  | corr k =>
    obtain ⟨_, _, _, _, e⟩ := h
    obtain ⟨_, _, _, _, rfl⟩ := corrBody_eq_ok.1 e
    exact .inr ⟨rfl, rfl, rfl⟩
  | decode k =>
    obtain ⟨_, _, _, _, e⟩ := h
    obtain ⟨_, _, _, _, _, _, rfl⟩ := decodeLoop_frame _ e
    exact .inr ⟨rfl, rfl, rfl⟩

theorem takeWord_of_command (h : decode w = .command i) : takeWord w s = exec i s := by
  simp only [takeWord, h]

/-- A word handed over resets, raises a fault with that word in FCMD, or leaves the diagnostics alone. -/
theorem takeWord_diagnostics (e : takeWord w s = .next t) :
    (decode w = .command .srst ∧ t = s.toReset) ∨ (s.fault = false ∧ ∃ x, t = s.enterFault x w) ∨
      SameDiagnostics s t := by
  rcases decoded_cases (decode w) with ⟨i, hd⟩ | ⟨why, hd⟩
  · rw [takeWord_of_command hd] at e
    obtain ⟨hw, -⟩ := decode_eq_command_iff.1 hd
    rcases exec_next_cases e with ⟨-, rfl⟩ | ⟨hf, x, rfl⟩ | heff
    · exact .inr (.inr ⟨rfl, rfl, rfl⟩)
    · exact .inr (.inl ⟨hf, x, by rw [hw]⟩)
    · rcases sameDiagnostics_of_effect heff with ⟨rfl, ht⟩ | hsame
      · exact .inl ⟨hd, ht⟩
      · exact .inr (.inr hsame)
  · rw [takeWord_of_illegal hd] at e
    rcases illegalWord_eq_next.1 e with ⟨-, rfl⟩ | ⟨hf, rfl⟩
    · exact .inr (.inr ⟨rfl, rfl, rfl⟩)
    · exact .inr (.inl ⟨hf, _, rfl⟩)

theorem takeWordThenRst_eq_toReset {n : Nat} (e : takeWordThenRst w n s = .next t) : ∃ u : State, t = u.toReset := by
  simp only [takeWordThenRst] at e
  split at e
  · cases e; exact ⟨s, rfl⟩
  · split at e <;> cases e
    exact ⟨_, rfl⟩

/-- A step resets, raises a fault with the word it took in FCMD, or leaves the diagnostics alone. -/
theorem step_diagnostics (e : step s = .next t) :
    ((∃ u : State, t = u.toReset) ∧ ∃ ev rest, s.port = ev :: rest ∧ ev.Resets) ∨
    (s.fault = false ∧ ∃ w rest x, s.port = .command w :: rest ∧ t = { s with port := rest }.enterFault x w) ∨
    SameDiagnostics s t := by
  cases hp : s.port with
  | nil =>
    simp only [step, hp] at e
    cases e
    exact .inr (.inr ⟨rfl, rfl, rfl⟩)
  | cons ev rest =>
    rw [step_of_port hp] at e
    cases ev with
    | rst => cases e; exact .inl ⟨⟨_, rfl⟩, _, _, rfl, .inl rfl⟩
    | commandThenRst w n =>
      exact .inl ⟨takeWordThenRst_eq_toReset e, _, _, rfl, .inr (.inl ⟨w, n, rfl⟩)⟩
    | command w =>
      rcases takeWord_diagnostics e with ⟨hd, ht⟩ | ⟨hf, x, ht⟩ | hsame
      · exact .inl ⟨⟨_, ht⟩, _, _, rfl, .inr (.inr ⟨w, rfl, hd⟩)⟩
      · exact .inr (.inl ⟨hf, w, rest, x, rfl, ht⟩)
      · exact .inr (.inr hsame)

/-- Settles O14: of the three things a step can do to the diagnostics only `State.enterFault` sets FAULT. -/
theorem faultEntryWritesDiagnosticsOnly : Obligations.FaultEntryWritesDiagnosticsOnly := by
  intro s t hf e ht
  rcases step_diagnostics e with ⟨⟨u, rfl⟩, -⟩ | ⟨-, w, rest, x, hp, rfl⟩ | ⟨hsame, -, -⟩
  · cases ht
  · exact ⟨w, rest, hp, x.code_range.1, x.code_range.2, rfl⟩
  · rw [hsame, hf] at ht; cases ht

/-- Settles O17: with FAULT = 1 no fault is raised, so a step resets or leaves the diagnostics alone. -/
theorem onlyResetLeavesFaultState : Obligations.OnlyResetLeavesFaultState := by
  intro s t hf e
  rcases step_diagnostics e with ⟨⟨u, rfl⟩, hreset⟩ | ⟨hclear, -⟩ | ⟨hfault, hcause, hfcmd⟩
  · exact .inr ⟨resetValues_toReset u, hreset⟩
  · rw [hf] at hclear; cases hclear
  · exact .inl ⟨hfault.trans hf, hcause, hfcmd⟩

/-! ## What a standing fault drops (R188) -/

theorem exec_of_fault (hf : s.fault = true) (hnop : i ≠ .nop) (hrdreg : ∀ r, i ≠ .rdreg r) (hsrst : i ≠ .srst) :
    exec i s = .next s := by
  cases i with
  | nop => exact absurd rfl hnop
  | rdreg r => exact absurd rfl (hrdreg r)
  | srst => exact absurd rfl hsrst
  | _ => exact unlessFaulted_of_fault hf

theorem step_of_command (hp : s.port = .command w :: rest) (h : decode w = .command i) :
    step s = exec i { s with port := rest } :=
  (step_of_port hp).trans (takeWord_of_command h)

theorem step_of_dropped (hf : s.fault = true) (hp : s.port = .command w :: rest) (hnop : decode w ≠ .command .nop)
    (hrdreg : ∀ r, decode w ≠ .command (.rdreg r)) (hsrst : decode w ≠ .command .srst) :
    step s = .next { s with port := rest } := by
  rcases decoded_cases (decode w) with ⟨i, hd⟩ | ⟨why, hd⟩
  · rw [step_of_command hp hd]
    rw [hd] at hnop hsrst
    exact exec_of_fault hf (fun h => hnop (h ▸ rfl)) (fun r h => hrdreg r (h ▸ hd)) (fun h => hsrst (h ▸ rfl))
  · rw [step_of_illegal hp hd]
    exact unlessFaulted_of_fault hf

/-- Settles O16: NOP, RDREG and SRST are not under `unlessFaulted`, and every other word is. -/
theorem faultStateDropsOtherWords : Obligations.FaultStateDropsOtherWords := by
  refine ⟨fun s hf hs => ?_, fun s w rest hf hp => ⟨fun hd => ?nop, fun r hd hc => ?rdreg, fun hd => ?srst,
    step_of_dropped hf hp⟩⟩
  · obtain ⟨-, hclear⟩ := hs
    rw [hf] at hclear; cases hclear
  case nop => rw [step_of_command hp hd, exec_nop]
  case rdreg =>
    obtain ⟨-, hlegal⟩ := decode_eq_command_iff.1 hd
    rw [step_of_command hp hd]
    exact exec_rdreg_of_legal (s := { s with port := rest }) hlegal hc
  case srst => exact ⟨_, step_of_command hp hd, resetValues_toReset _, sameSurroundings_toReset _⟩

/-! ## The order of the tests (R184) -/

theorem firstFailing_corr_eq_none_iff :
    firstFailing s (.corr k) = none ↔
      k.toNat < s.cfg.n ∧ s.slen.toNat = s.cfg.l ∧ s.cvalid.getLsbD k.toNat = true := by
  simp [firstFailing, ite_eq_iff]

/-- The faults CORR and DECODE share come in the order of `firstFailing`. -/
theorem faults_of_firstFailing_corr {body : Result} {x : BitVec 4} (e : exec i s = correlatorTests i k s body)
    (hf : s.fault = false) (hx : firstFailing s (.corr k) = some x) : Faults i s x := by
  obtain ⟨hid, hlen, hcode⟩ := faults_of_correlatorTests e hf
  simp only [firstFailing] at hx
  split at hx
  next hk => cases hx; exact hid hk
  next hk =>
    split at hx
    next hl => cases hx; exact hlen (Nat.not_le.1 hk) hl
    next hl =>
      obtain ⟨hv, ⟨⟩⟩ := Option.ite_none_right_eq_some.1 hx
      exact hcode (Nat.not_le.1 hk) (not_not.1 hl) hv

theorem faults_of_firstFailing {x : BitVec 4} (hf : s.fault = false) (hx : firstFailing s i = some x) :
    Faults i s x := by
  cases i with
  | nop | rdreg r | srst | sclr => cases hx
  | corr k => exact faults_of_firstFailing_corr (exec_corr_eq k s) hf hx
  | decode k => exact faults_of_firstFailing_corr (exec_decode_eq k s) hf hx
  | ginit k => obtain ⟨hk, ⟨⟩⟩ := Option.ite_none_right_eq_some.1 hx; exact ginit_faults hf hk
  | gmat k => obtain ⟨hk, ⟨⟩⟩ := Option.ite_none_right_eq_some.1 hx; exact gmat_faults hf hk
  | gstep => obtain ⟨hv, ⟨⟩⟩ := Option.ite_none_right_eq_some.1 hx; exact gstep_faults hf hv
  | ggen n => obtain ⟨hv, ⟨⟩⟩ := Option.ite_none_right_eq_some.1 hx; exact ggen_faults hf hv n
  | spush v => obtain ⟨hl, ⟨⟩⟩ := Option.ite_none_right_eq_some.1 hx; exact spush_faults hf hl v
  | rot => obtain ⟨hl, ⟨⟩⟩ := Option.ite_none_right_eq_some.1 hx; exact rot_faults hf hl

theorem correlatorTests_of_pass {body : Result} (hf : s.fault = false) (h : firstFailing s (.corr k) = none) :
    correlatorTests i k s body = body := by
  obtain ⟨hk, hl, hv⟩ := firstFailing_corr_eq_none_iff.1 h
  simp [correlatorTests, hf, (idInRange_eq_true s k).2 hk, (sfull_eq_true s).2 hl, State.rowValid, hv]

/-- A command none of whose tests fails, if it answers, answers its own effect. -/
theorem effect_of_firstFailing_eq_none (hw : i.wf = true) (hf : s.fault = false) (h : firstFailing s i = none)
    (e : exec i s = .next t) : Effect i s t := by
  cases i with
  | nop | srst => cases e; rfl
  | rdreg r =>
    obtain ⟨reg, hreg⟩ := Option.isSome_iff_exists.1 ((readReg?_isSome r).trans hw)
    simp only [exec, execRdreg, hreg] at e
    cases e
    exact ⟨reg, hreg, rfl⟩
  | sclr => rw [exec_sclr_of_clear hf] at e; cases e; exact ⟨hf, rfl⟩
  | ginit k =>
    have hk : k.toNat < s.cfg.n := by simpa [firstFailing] using h
    rw [exec_ginit_of_lt hf hk] at e; cases e; exact ⟨hf, hk, rfl⟩
  | gmat k =>
    have hk : k.toNat < s.cfg.n := by simpa [firstFailing] using h
    exact ⟨hf, hk, by simpa [exec, execGmat, hf, (idInRange_eq_true s k).2 hk] using e⟩
  | gstep =>
    have hv : s.gvalid = true := by simpa [firstFailing] using h
    exact ⟨hf, hv, by simpa [exec, execGstep, hf, hv] using e⟩
  | ggen n =>
    have hv : s.gvalid = true := by simpa [firstFailing] using h
    exact ⟨hf, hv, by simpa [exec, execGgen, ggenTrips, hf, hv] using e⟩
  | spush v =>
    have hl : s.slen.toNat < s.cfg.l := by simpa [firstFailing] using h
    rw [exec_spush_of_lt hf hl] at e; cases e; exact ⟨hf, hl, rfl⟩
  | rot =>
    have hl : s.slen.toNat = s.cfg.l := by simpa [firstFailing] using h
    exact ⟨hf, hl, by simpa [exec, execRot, hf, (sfull_eq_true s).2 hl] using e⟩
  | corr k =>
    obtain ⟨hk, hl, hv⟩ := firstFailing_corr_eq_none_iff.1 h
    rw [exec_corr_eq, correlatorTests_of_pass hf h, finish_eq_next] at e
    exact ⟨hf, hk, hl, hv, e⟩
  | decode k =>
    obtain ⟨hk, hl, hv⟩ := firstFailing_corr_eq_none_iff.1 h
    rw [exec_decode_eq, correlatorTests_of_pass hf h, finish_eq_next] at e
    exact ⟨hf, hk, hl, hv, e⟩

/-- The own effect of a command never sets FAULT. -/
theorem fault_eq_false_of_effect (hf : s.fault = false) (h : Effect i s t) : t.fault = false := by
  rcases sameDiagnostics_of_effect h with ⟨-, rfl⟩ | ⟨hfault, -, -⟩
  · rfl
  · exact hfault.trans hf

/-- Settles O15: each test answers its own cause, a command that passes them all has its own effect, and a word that is
no command meets `illegalWord` before any of them. -/
theorem firstFailingTestDecides : Obligations.FirstFailingTestDecides := by
  refine ⟨fun i s hw hf => ⟨fun x hx => faults_of_firstFailing hf hx, fun hnone t e =>
    fault_eq_false_of_effect hf (effect_of_firstFailing_eq_none hw hf hnone e)⟩, fun s w rest hf hp hno => ?_⟩
  obtain ⟨why, hd⟩ := (decoded_cases (decode w)).resolve_left (not_exists.2 hno)
  rw [step_of_illegal hp hd]
  exact unlessFaulted_of_clear hf

end Sys2Proof.Machine
end

section
/-!
SUPPORT. The encoding as a round trip, the invariants along a step, the reset state, and what a step does with the next
port event.
-/

namespace Sys2Proof.Machine

open Sys2Proof.Claim

variable {s t : State} {i : Instr}

/-! ## The encoding (R90 to R95) -/

/-- Settles O2: `decode_eq_command_iff` read from the encoder to the decoder. -/
theorem decodeOfEncode : Obligations.DecodeOfEncode :=
  fun _ hwf => decode_eq_command_iff.2 ⟨rfl, hwf⟩

/-- Settles O3: `decode_eq_command_iff` read from the decoder to the encoder. -/
theorem encodeOfDecode : Obligations.EncodeOfDecode :=
  fun _ _ hd => decode_eq_command_iff.1 hd

/-- Settles O1: each word is the encoding of a well-formed command. -/
theorem decoderReadsSpecWords : Obligations.DecoderReadsSpecWords := by
  refine ⟨?_, ?_, ?_, ?_, ?_, ?_, ?_, ?_, ?_, ?_, ?_, ?_⟩
  all_goals exact decode_eq_command_iff.2 ⟨rfl, rfl⟩

/-! ## The invariants along a step (R41) -/

/-- Settles O11: the state a step answers is the one of `answersInv_step`. -/
theorem stepKeepsInvariants : Obligations.StepKeepsInvariants := by
  intro s t h e
  obtain ⟨u, e', hu, -⟩ := answersInv_step h
  rw [e] at e'
  cases e'
  exact hu

/-- Settles O12: a step from a state with the invariants answers a next state. -/
theorem noStepStops : Obligations.NoStepStops := by
  intro s h
  obtain ⟨t, e, -, -⟩ := answersInv_step h
  exact ⟨t, e⟩

/-! ## The reset state (R42) -/

/-- Every choice of the parameters the spec leaves open is valid (R8). -/
theorem built_ok : Config.built.OK where
  n_pos := Nat.le_add_left _ _
  n_le := Config.lastIdentity.isLt
  l_pos := Nat.le_add_left _ _
  l_le := Config.lastPosition.isLt
  taps_length := by simp [Config.built]
  f_pos := by decide
  thrHi_pos := by decide
  thrLo_neg := by decide
  thrHi_fits := by decide
  thrLo_fits := by decide

/-- Settles O10: the reset state of a valid configuration meets the invariants, which do not look at the port. -/
theorem resetStateMeetsInvariants : Obligations.ResetStateMeetsInvariants :=
  ⟨fun _ todo hc => (resetOf_inv hc).popPort todo, resetOf_inv built_ok⟩

/-- The reset state is a fixed point of reset, so what reset gives every state it has. -/
theorem resetValues_resetOf (c : Cfg) : ResetValues (State.resetOf c) := resetValues_toReset (State.resetOf c)

/-- Settles O8: the reset state of a configuration has the values reset gives. -/
theorem resetStateHasStatedValues : Obligations.ResetStateHasStatedValues :=
  ⟨fun c => ⟨resetValues_resetOf c, rfl, rfl, rfl, rfl, rfl⟩, resetValues_resetOf _, rfl⟩

/-! ## The port (R101) -/

theorem instr?_eq_some {d : Decoded} : d.instr? = some i ↔ d = .command i := by
  cases d <;> simp [Decoded.instr?]

/-- Settles O6: the port's next event is a word, and the step is the command it decodes to. -/
theorem stepRunsDecodedCommand : Obligations.StepRunsDecodedCommand := by
  refine ⟨fun s w rest i => step_of_command, fun s rest i hp hwf => step_of_command hp (decodeOfEncode i hwf), ?_⟩
  intro s nbits w i hd
  exact step_of_command (s := s.withFetchWord nbits w) rfl (instr?_eq_some.1 hd)

theorem step_of_idle (hp : s.port = []) : step s = .next s := by
  simp only [step, hp]

theorem run_of_idle (hp : s.port = []) (k : Nat) : Host.Core.run core k s = .next s := by
  induction k with
  | zero => rfl
  | succ k ih => exact (run_succ_of_step (step_of_idle hp) k).trans ih

/-- Settles O46: an idle step answers the state it is given. -/
theorem idleMachineStaysIdle : Obligations.IdleMachineStaysIdle :=
  fun _ hp => ⟨step_of_idle hp, run_of_idle hp⟩

end Sys2Proof.Machine
end

section
/-!
SUPPORT. The arithmetic of the correlator, and DECODE as rounds of CORR, the report and ROT.
-/

namespace Sys2Proof.Machine

open Sys2Proof.Claim

variable {s t : State} {k : BitVec 8} {row : List Bool} {xs : List Sample}

/-! ## The quotient and the sum (R151, R152) -/

theorem tdiv_of_nonneg {a : Int} (f : Nat) (ha : 0 ≤ a) : tdiv a f = a / (f : Int) :=
  Int.tdiv_eq_ediv_of_nonneg ha

theorem tdiv_of_neg {a : Int} (f : Nat) (ha : a < 0) : tdiv a f = -(-a / (f : Int)) := by
  rw [← tdiv_of_nonneg f (Int.neg_nonneg_of_nonpos ha.le), tdiv, tdiv, Int.neg_tdiv, Int.neg_neg]

/-- Settles O33: below 0 the quotient is the negated quotient of the negated dividend. -/
theorem scoreTruncatesTowardZero : Obligations.ScoreTruncatesTowardZero :=
  ⟨fun _ f _ => ⟨tdiv_of_nonneg f, tdiv_of_neg f⟩, by decide⟩

/-- Settles O32: the sum is bounded by `2^15` a position, which 27 bits hold. -/
theorem correlationSumNeverOverflows : Obligations.CorrelationSumNeverOverflows := by
  intro row xs hlen hle
  obtain ⟨hge, hub⟩ := corrSum_fits row xs hle
  exact ⟨corrSum_eq_sum hlen, hge, hub, toInt_ofInt27 hge hub⟩

/-! ## DECODE by commands (R157) -/

/-- A round of DECODE by commands is CORR, the report as the model writes it, and ROT. -/
theorem decodeByCommands_succ_of_next {u v : State} (n : Nat) (hcorr : exec (.corr k) s = .next u)
    (hrot : exec .rot (u.report k) = .next v) : decodeByCommands k (n + 1) s = decodeByCommands k n v := by
  rw [decodeByCommands, hcorr]
  change (match exec .rot (u.report k) with
    | .next v => decodeByCommands k n v
    | .fault r => .fault r
    | .refused r => .refused r) = _
  rw [hrot]

/-- From a state that is ready a round of the two commands answers what an iteration of DECODE's loop answers. -/
theorem exists_round (h : ReadyFor s k) : ∃ u v, exec (.corr k) s = .next u ∧ exec .rot (u.report k) = .next v ∧
    decodeIteration k s = .ok v ∧ ReadyFor v k := by
  obtain ⟨row, xs, hr, hx⟩ := exists_operands_of_ready h
  have hcorr : exec (.corr k) s = .next (s.setCorr (corrSum row xs)) := by
    rw [exec_corr_eq, correlatorTests_of_ready h]
    exact finish_eq_next.2 (corrBody_eq_ok.2 ⟨row, xs, hr, hx, rfl⟩)
  obtain ⟨hinv, hf, hk, hl, hv⟩ := h
  have hframe := report_frame (s.setCorr (corrSum row xs)) k
  have hrot : exec .rot ((s.setCorr (corrSum row xs)).report k) =
      .next (((s.setCorr (corrSum row xs)).report k).rotated xs) :=
    exec_rot_of_row (by rw [hframe]; exact hf) (by rw [hframe]; exact hl) (by simpa using hx)
  refine ⟨_, _, hcorr, hrot, decodeIteration_eq_ok.2 ⟨row, xs, hr, hx, rfl⟩, ?_⟩
  refine ⟨inv_of_exec ((inv_of_exec hinv hcorr).report k) hrot, ?_⟩
  rw [hframe]
  exact ⟨hf, hk, hl, hv⟩

theorem decodeByCommands_eq_decodeLoop (h : ReadyFor s k) (n : Nat) :
    decodeByCommands k n s = finish (decodeLoop k n s) := by
  induction n generalizing s with
  | zero => rfl
  | succ n ih =>
    obtain ⟨u, v, hcorr, hrot, hiter, hv⟩ := exists_round h
    rw [decodeByCommands_succ_of_next n hcorr hrot, ih hv, decodeLoop, hiter]

/-- Settles O36: each round of the commands is an iteration of DECODE's loop. -/
theorem decodeIsCorrReportRotRepeated : Obligations.DecodeIsCorrReportRotRepeated := by
  intro s k h
  have hdecode := exec_decode_of_ready h
  refine ⟨_, hdecode, ?_⟩
  rw [decodeByCommands_eq_decodeLoop h, ← hdecode, exec_decode_eq, correlatorTests_of_ready h]

end Sys2Proof.Machine
end

section
/-!
SUPPORT. What a command may write (R20, R39): which pieces of state each leaves alone, that no command looks at a
channel, and that the channels only grow, also when `rst` cuts a command short (R228).
-/

namespace Sys2Proof.Machine

open Sys2Proof.Claim

variable {s t u : State} {i : Instr} {k : BitVec 8}

/-! ## Writers (R20) -/

/-- Settles O44: dropping writes nothing, fault entry the diagnostics, and each command's own effect its own pieces. -/
theorem stateWrittenOnlyByItsCommands : Obligations.StateWrittenOnlyByItsCommands := by
  intro i s t hi e
  rcases exec_next_cases e with ⟨-, rfl⟩ | ⟨-, x, rfl⟩ | h
  · simp
  · simp
  · cases i with
    | srst => exact absurd rfl hi
    | nop => obtain rfl := h; simp
    | rdreg r => obtain ⟨_, _, rfl⟩ := h; simp
    | sclr => obtain ⟨_, rfl⟩ := h; simp
    | ginit k | spush v => obtain ⟨_, _, rfl⟩ := h; simp
    | gstep => obtain ⟨_, _, hbody⟩ := h; obtain ⟨_, _, rfl⟩ := gstepBody_eq_ok.1 hbody; simp
    | ggen n => obtain ⟨_, _, hbody⟩ := h; obtain ⟨_, _, rfl⟩ := ggenBody_eq_ok.1 hbody; simp
    | gmat k => obtain ⟨_, _, hbody⟩ := h; obtain ⟨_, _, rfl⟩ := gmatBody_eq_ok.1 hbody; simp
    | rot => obtain ⟨_, _, hbody⟩ := h; obtain ⟨_, _, rfl⟩ := rotBody_eq_ok.1 hbody; simp
    | corr k => obtain ⟨_, _, _, _, hbody⟩ := h; obtain ⟨_, _, _, _, rfl⟩ := corrBody_eq_ok.1 hbody; simp
    | decode k =>
      obtain ⟨_, _, _, _, hbody⟩ := h
      obtain ⟨_, _, _, _, _, _, rfl⟩ := decodeLoop_frame _ hbody
      simp

theorem cfg_port_of_exec (e : exec i s = .next t) : t.cfg = s.cfg ∧ t.port = s.port := by
  by_cases hi : i = .srst
  · subst hi; cases e; exact ⟨rfl, rfl⟩
  · obtain ⟨-, -, -, -, -, -, -, -, -, -, -, hsame⟩ := stateWrittenOnlyByItsCommands i s t hi e
    exact hsame

/-! ## Histories (R39)

A command commutes with putting a history in front of what the channels hold. -/

/-- What the three channels held before. -/
structure History where
  chipout : List Bool
  resout : List Word
  rdout : List Word

/-- `s` with the history `h` in front of what its channels hold. -/
def State.after (s : State) (h : History) : State :=
  { s with chipout := h.chipout ++ s.chipout, resout := h.resout ++ s.resout, rdout := h.rdout ++ s.rdout }

/-- A result with its next state, if it has one, put after the history `h`. -/
def resultAfter (h : History) : Result → Result
  | .next s => .next (s.after h)
  | .fault r => .fault r
  | .refused r => .refused r

variable {h : History} {body body' : Result} {r r' : Except Fault State}

theorem unlessFaulted_after (hb : body' = resultAfter h body) :
    unlessFaulted (s.after h) body' = resultAfter h (unlessFaulted s body) := by
  have hfault : (s.after h).fault = s.fault := rfl
  rw [unlessFaulted, unlessFaulted, hfault, hb]
  cases s.fault <;> rfl

theorem require_after {c : Bool} {x : Cause} {w : Word} (hb : body' = resultAfter h body) :
    require c x w (s.after h) body' = resultAfter h (require c x w s body) := by
  cases c with
  | true => exact hb
  | false => rfl

theorem finish_after (hr : r' = r.map (·.after h)) : finish r' = resultAfter h (finish r) := by
  subst hr
  cases r <;> rfl

theorem regWord_after (s : State) (h : History) (reg : ReadReg) : (s.after h).regWord reg = s.regWord reg := by
  cases reg <;> rfl

theorem ggenBody_after (n : Nat) (s : State) (h : History) :
    ggenBody n (s.after h) = (ggenBody n s).map (·.after h) := by
  have htap : (s.after h).tapPair? (s.after h).id = s.tapPair? s.id := rfl
  rw [ggenBody, ggenBody, htap]
  cases s.tapPair? s.id with
  | none => rfl
  | some p => simp [Except.map, State.after, State.gen, State.setGen, State.emitChips]

theorem gmatBody_after (k : BitVec 8) (s : State) (h : History) :
    gmatBody k (s.after h) = (gmatBody k s).map (·.after h) := by
  have htap : (s.after h).tapPair? k = s.tapPair? k := rfl
  rw [gmatBody, gmatBody, htap]
  cases s.tapPair? k <;> rfl

theorem rotBody_after (s : State) (h : History) : rotBody (s.after h) = (rotBody s).map (·.after h) := by
  have hrow : (s.after h).sampRow? = s.sampRow? := rfl
  rw [rotBody, rotBody, hrow]
  cases s.sampRow? <;> rfl

theorem corrBody_after (k : BitVec 8) (s : State) (h : History) :
    corrBody k (s.after h) = (corrBody k s).map (·.after h) := by
  have hcode : (s.after h).codeRow? k = s.codeRow? k := rfl
  have hsamp : (s.after h).sampRow? = s.sampRow? := rfl
  rw [corrBody, corrBody, hcode, hsamp]
  cases s.codeRow? k with
  | none => rfl
  | some row => cases s.sampRow? <;> rfl

theorem report_after (k : BitVec 8) (s : State) (h : History) : (s.after h).report k = (s.report k).after h := by
  have hcls : (s.after h).cls = s.cls := rfl
  rw [State.report, State.report, hcls]
  split
  · simp [State.after, State.emitResult]
  · rfl

theorem decodeIteration_after (k : BitVec 8) (s : State) (h : History) :
    decodeIteration k (s.after h) = (decodeIteration k s).map (·.after h) := by
  rw [decodeIteration, decodeIteration, corrBody_after]
  cases corrBody k s with
  | error e => rfl
  | ok v => exact (congrArg rotBody (report_after k v h)).trans (rotBody_after _ h)

theorem decodeLoop_after (k : BitVec 8) (n : Nat) (s : State) (h : History) :
    decodeLoop k n (s.after h) = (decodeLoop k n s).map (·.after h) := by
  induction n generalizing s with
  | zero => rfl
  | succ n ih =>
    rw [decodeLoop, decodeLoop, decodeIteration_after]
    cases decodeIteration k s with
    | error e => rfl
    | ok v => exact ih v

theorem exec_after (i : Instr) (s : State) (h : History) : exec i (s.after h) = resultAfter h (exec i s) := by
  cases i with
  | nop | srst => rfl
  | rdreg r =>
    simp only [exec, execRdreg, regWord_after]
    split
    · simp [resultAfter, State.after, State.emitRead]
    · exact unlessFaulted_after rfl
  | ginit k => exact unlessFaulted_after (require_after rfl)
  | gstep =>
    exact unlessFaulted_after (require_after (finish_after (by rw [← ggenBody_one, ← ggenBody_one, ggenBody_after])))
  | ggen n => exact unlessFaulted_after (require_after (finish_after (ggenBody_after _ s h)))
  | gmat k => exact unlessFaulted_after (require_after (finish_after (gmatBody_after k s h)))
  | sclr => exact unlessFaulted_after rfl
  | spush v => exact unlessFaulted_after (require_after rfl)
  | rot => exact unlessFaulted_after (require_after (finish_after (rotBody_after s h)))
  | corr k =>
    exact unlessFaulted_after (require_after (require_after (require_after (finish_after (corrBody_after k s h)))))
  | decode k =>
    exact unlessFaulted_after (require_after (require_after (require_after
      (finish_after (decodeLoop_after k _ s h)))))

/-- `s` with nothing emitted. -/
def State.unheard (s : State) : State := { s with chipout := [], resout := [], rdout := [] }

theorem unheard_after (s : State) (h : History) :
    s.unheard.after h = { s with chipout := h.chipout, resout := h.resout, rdout := h.rdout } := by
  simp [State.unheard, State.after]

theorem resultAfter_eq_next (e : resultAfter h body = .next t) : ∃ v, body = .next v ∧ t = v.after h := by
  cases body <;> cases e
  exact ⟨_, rfl, rfl⟩

/-- Settles O45: with any history a command does what it does with none, which is what it appends. -/
theorem commandsDoNotReadChannels : Obligations.CommandsDoNotReadChannels := by
  intro i s t cs rs ds e
  have hold : exec i s = resultAfter ⟨s.chipout, s.resout, s.rdout⟩ (exec i s.unheard) := by
    rw [← exec_after, unheard_after]
  obtain ⟨v, hv, rfl⟩ := resultAfter_eq_next (hold.symm.trans e)
  refine ⟨v.chipout, v.resout, v.rdout, rfl, rfl, rfl, ?_⟩
  have hnew := exec_after i s.unheard ⟨cs, rs, ds⟩
  rwa [unheard_after, hv] at hnew

/-! ## Channels grow (R39, R211) -/

/-- `t` has the configuration and the port of `s`, and each of its channels begins with what that of `s` holds. -/
def Grows (s t : State) : Prop :=
  (t.cfg = s.cfg ∧ t.port = s.port) ∧ s.chipout <+: t.chipout ∧ s.resout <+: t.resout ∧ s.rdout <+: t.rdout

theorem Grows.refl (s : State) : Grows s s := ⟨⟨rfl, rfl⟩, List.prefix_rfl, List.prefix_rfl, List.prefix_rfl⟩

theorem grows_enterFault (s : State) (x : Cause) (w : Word) : Grows s (s.enterFault x w) := Grows.refl s

theorem grows_of_exec (e : exec i s = .next t) : Grows s t := by
  obtain ⟨a, b, d, hchip, hres, hrd, -⟩ := commandsDoNotReadChannels i s t [] [] [] e
  exact ⟨cfg_port_of_exec e, hchip ▸ List.prefix_append _ _, hres ▸ List.prefix_append _ _,
    hrd ▸ List.prefix_append _ _⟩

theorem grows_of_illegalWord {w : Word} (e : illegalWord w s = .next t) : Grows s t := by
  rcases illegalWord_eq_next.1 e with ⟨-, rfl⟩ | ⟨-, rfl⟩
  · exact Grows.refl _
  · exact grows_enterFault _ _ _

theorem grows_of_takeWord {w : Word} (e : takeWord w s = .next t) : Grows s t := by
  simp only [takeWord] at e
  split at e
  · exact grows_of_exec e
  · exact grows_of_illegalWord e

/-! ## A command cut short (R228) -/

theorem grows_of_ggenTrips {m : Nat} {n : BitVec 16} (e : ggenTrips m n s = .next t) : Grows s t := by
  simp only [ggenTrips, unlessFaulted_eq_next, require_eq_next, finish_eq_next] at e
  rcases e with ⟨-, rfl⟩ | ⟨-, ⟨-, hbody⟩ | ⟨-, rfl⟩⟩
  · exact Grows.refl _
  · obtain ⟨p, -, rfl⟩ := ggenBody_eq_ok.1 hbody
    exact ⟨⟨rfl, rfl⟩, List.prefix_append _ _, List.prefix_rfl, List.prefix_rfl⟩
  · exact grows_enterFault _ _ _

theorem grows_of_decodeTrips {m : Nat} (e : decodeTrips m k s = .next t) : Grows s t := by
  simp only [decodeTrips, unlessFaulted_eq_next, require_eq_next, finish_eq_next] at e
  rcases e with ⟨-, rfl⟩ | ⟨-, ⟨-, ⟨-, ⟨-, hbody⟩ | ⟨-, rfl⟩⟩ | ⟨-, rfl⟩⟩ | ⟨-, rfl⟩⟩
  · exact Grows.refl _
  · obtain ⟨_, _, _, _, _, _, rfl⟩ := decodeLoop_frame _ hbody
    exact ⟨⟨rfl, rfl⟩, List.prefix_rfl, List.prefix_append _ _, List.prefix_rfl⟩
  all_goals exact grows_enterFault _ _ _

theorem ggenTrips_of_fault (hf : s.fault = true) (m : Nat) (n : BitVec 16) : ggenTrips m n s = .next s :=
  unlessFaulted_of_fault hf

theorem decodeTrips_of_fault (hf : s.fault = true) (m : Nat) (k : BitVec 8) : decodeTrips m k s = .next s :=
  unlessFaulted_of_fault hf

/-- GGEN for `a + b` chips goes on from where GGEN for `a` chips ends, if it is dropped or faults there too. -/
theorem ggenTrips_add {a : Nat} (b : Nat) {n : BitVec 16} (e : ggenTrips a n s = .next t) :
    ggenTrips (a + b) n s = ggenTrips b n t := by
  simp only [ggenTrips, unlessFaulted_eq_next, require_eq_next, finish_eq_next] at e
  rcases e with ⟨hf, rfl⟩ | ⟨hf, ⟨hv, hbody⟩ | ⟨hv, rfl⟩⟩
  · rw [ggenTrips_of_fault hf, ggenTrips_of_fault hf]
  · obtain ⟨p, -, rfl⟩ := ggenBody_eq_ok.1 hbody
    simp [ggenTrips, hf, hv, ggenBody_add hbody]
  · rw [ggenTrips_of_fault (enterFault_fault s _ _)]
    simp [ggenTrips, hf, hv]

theorem decodeLoop_add {a : Nat} (b : Nat) (e : decodeLoop k a s = .ok t) :
    decodeLoop k (a + b) s = decodeLoop k b t := by
  induction a generalizing s with
  | zero => cases e; rw [Nat.zero_add]
  | succ a ih =>
    rw [Nat.succ_add]
    simp only [decodeLoop] at e ⊢
    split at e
    · exact ih e
    · cases e

/-- DECODE for `a + b` phases goes on from where DECODE for `a` phases ends, if it is dropped or faults there too. -/
theorem decodeTrips_add {a : Nat} (b : Nat) (e : decodeTrips a k s = .next t) :
    decodeTrips (a + b) k s = decodeTrips b k t := by
  simp only [decodeTrips, unlessFaulted_eq_next, require_eq_next, finish_eq_next] at e
  rcases e with ⟨hf, rfl⟩ | ⟨hf, ⟨hk, ⟨hl, ⟨hv, hbody⟩ | ⟨hv, rfl⟩⟩ | ⟨hl, rfl⟩⟩ | ⟨hk, rfl⟩⟩
  · rw [decodeTrips_of_fault hf, decodeTrips_of_fault hf]
  · obtain ⟨m, p, x, y, z, ws, ht⟩ := decodeLoop_frame _ hbody
    have hf' : t.fault = false := by rw [ht]; exact hf
    have hk' : t.idInRange k = true := by rw [ht]; exact hk
    have hl' : t.sfull = true := by rw [ht]; exact hl
    have hv' : t.rowValid k = true := by rw [ht]; exact hv
    simp [decodeTrips, decodeLoop_add b hbody, hf, hk, hl, hv, hf', hk', hl', hv']
  all_goals
    rw [decodeTrips_of_fault (enterFault_fault s _ _)]
    simp [decodeTrips, *]

theorem grows_of_execPrefix {m : Nat} (e : execPrefix m i s = .next t) : Grows s t := by
  cases i with
  | ggen n => exact grows_of_ggenTrips e
  | decode k => exact grows_of_decodeTrips e
  | gmat k => cases e; exact Grows.refl s
  | _ =>
    simp only [execPrefix] at e
    split at e
    · cases e; exact Grows.refl s
    · exact grows_of_exec e

/-- What a part of a command emits is the beginning of what the whole command emits. -/
theorem grows_of_execPrefix_of_exec {m : Nat} (e : execPrefix m i s = .next t) (e' : exec i s = .next u) :
    Grows t u := by
  cases i with
  | ggen n =>
    refine grows_of_ggenTrips (m := n.toNat - min m n.toNat) (n := n) ?_
    rw [← ggenTrips_add _ e, Nat.add_sub_of_le (Nat.min_le_right _ _)]
    exact e'
  | decode k =>
    refine grows_of_decodeTrips (m := s.cfg.l - min m s.cfg.l) (k := k) ?_
    rw [← decodeTrips_add _ e, Nat.add_sub_of_le (Nat.min_le_right _ _)]
    exact e'
  | gmat k => cases e; exact grows_of_exec e'
  | _ =>
    simp only [execPrefix] at e
    split at e
    · cases e; exact grows_of_exec e'
    · rw [e] at e'; cases e'; exact Grows.refl t

/-- A reset touches neither the configuration nor the port nor a channel. -/
theorem Grows.toReset (h : Grows s t) : Grows s t.toReset := h

theorem grows_of_takeWordThenRst {w : Word} {m : Nat} (e : takeWordThenRst w m s = .next t) : Grows s t := by
  simp only [takeWordThenRst] at e
  split at e
  · cases e; exact (Grows.refl s).toReset
  · split at e
    next hpart => cases e; exact (grows_of_execPrefix hpart).toReset
    all_goals cases e

theorem grows_of_takeEvent {ev : PortEvent} (e : takeEvent ev s = .next t) : Grows s t := by
  cases ev with
  | command w => exact grows_of_takeWord e
  | rst => cases e; exact (Grows.refl s).toReset
  | commandThenRst w m => exact grows_of_takeWordThenRst e

/-- Settles O43: a reset changes no channel and no configuration, and every command only appends. -/
theorem configFixedAndChannelsGrow : Obligations.ConfigFixedAndChannelsGrow := by
  intro s t e
  simp only [step] at e
  split at e
  · cases e; exact ⟨rfl, (Grows.refl s).2⟩
  · obtain ⟨⟨hcfg, -⟩, hchannels⟩ := grows_of_takeEvent e
    exact ⟨hcfg, hchannels⟩

/-- Where `rst` lands inside the word: the state a reset makes of a state `v` on the way to what the word answers. -/
theorem takeWordThenRst_between {w : Word} {m : Nat} (e : takeWordThenRst w m s = .next t)
    (e' : takeWord w s = .next u) : ∃ v : State, t = v.toReset ∧ Grows s v ∧ Grows v u := by
  rcases decoded_cases (decode w) with ⟨i, hd⟩ | ⟨why, hd⟩
  · rw [takeWord_of_command hd] at e'
    simp only [takeWordThenRst, hd] at e
    split at e
    next v hpart =>
      cases e
      exact ⟨v, rfl, grows_of_execPrefix hpart, grows_of_execPrefix_of_exec hpart e'⟩
    all_goals cases e
  · simp only [takeWordThenRst, hd] at e
    cases e
    exact ⟨s, rfl, Grows.refl s, grows_of_takeWord e'⟩

/-- Settles O9: the reset leaves the channels of a state on the way to what the whole command answers. -/
theorem rstDuringCommandKeepsPrefix : Obligations.RstDuringCommandKeepsPrefix := by
  intro s w m rest h hp
  obtain ⟨t, e, -, -⟩ := answersInv_takeWordThenRst (h.popPort rest) w m
  obtain ⟨u, e', -, -⟩ := answersInv_takeWord (h.popPort rest) w
  obtain ⟨v, rfl, ⟨⟨hcfg, hport⟩, hchip, hres, hrd⟩, -, hchip', hres', hrd'⟩ := takeWordThenRst_between e e'
  exact ⟨v.toReset, u, (step_of_port hp).trans e, e', resetValues_toReset v, hcfg, hport, ⟨hchip, hchip'⟩,
    ⟨hres, hres'⟩, ⟨hrd, hrd'⟩⟩

end Sys2Proof.Machine
end

section
/-!
SUPPORT. The pseudo-commands (R98): a batch of GMATs, of SPUSHes and of DECODEs, each in closed form, and RUN made of
the three; the rows under REF.
-/

namespace Sys2Proof.Machine

open Sys2Proof.Claim

variable {s t : State} {k : BitVec 8} {m : Nat}

/-! ## Lists of commands -/

@[simp] theorem execList_singleton (i : Instr) (s : State) : execList [i] s = exec i s := by
  rw [execList]
  cases exec i s <;> rfl

theorem inv_of_execList {is : List Instr} (h : s.Inv) (e : execList is s = .next t) : t.Inv := by
  induction is generalizing s with
  | nil => cases e; exact h
  | cons i is ih =>
    rw [execList] at e
    split at e
    next u hu => exact ih (inv_of_exec h hu) e
    all_goals cases e

/-- A command for every identity below `m + 1` is one for every identity below `m`, and one more. -/
theorem execList_range_succ {f : Nat → Instr} (e : execList ((List.range m).map f) s = .next t) :
    execList ((List.range (m + 1)).map f) s = exec (f m) t := by
  rw [List.range_succ, List.map_append, execList_append_of_next e, List.map_singleton, execList_singleton]

theorem toNat_ofNat8 {n : Nat} (h : n < 256) : (BitVec.ofNat 8 n).toNat = n := Nat.mod_eq_of_lt h

/-! ## The row of an identity (R126) -/

/-- The chips of `L` steps from the all-ones state with the tap pair of identity `id`. -/
def rowChips (c : Cfg) (id : Nat) : List Bool :=
  ((c.taps[id]?).map fun t => (Gen.run c t c.l (Gen.start false)).2).getD []

theorem run_bindGen {p : TapPair} (ht : s.tapPair? k = some p) :
    (Gen.run s.cfg p s.cfg.l (s.bindGen k).gen).2 = rowChips s.cfg k.toNat := by
  have hrow : rowChips s.cfg k.toNat = (Gen.run s.cfg p s.cfg.l (Gen.start false)).2 := by
    rw [rowChips, show s.cfg.taps[k.toNat]? = some p from ht]
    rfl
  rw [hrow]
  exact (Gen.run_chip_irrelevant _ (s.bindGen k).gen (Gen.start false) rfl rfl).1

theorem length_rowChips {c : Cfg} (hc : c.OK) {id : Nat} (h : id < c.n) : (rowChips c id).length = c.l := by
  have htaps : id < c.taps.length := hc.taps_length ▸ h
  simp [rowChips, htaps]

theorem exists_exec_gmat (hc : s.cfg.OK) (hf : s.fault = false) (hk : k.toNat < s.cfg.n) :
    ∃ g, exec (.gmat k) s = .next (((s.bindGen k).setGen g).storeRow k (rowChips s.cfg k.toNat)) := by
  obtain ⟨p, hp⟩ := tapPair?_of_lt hc hk
  exact ⟨_, by rw [exec_gmat_of_lt hf hk hp, run_bindGen hp]⟩

/-- GINIT and `L` GSTEPs emit the row. -/
theorem exists_ginit_gsteps (hc : s.cfg.OK) (hf : s.fault = false) (hk : k.toNat < s.cfg.n) :
    ∃ u, execList (.ginit k :: List.replicate s.cfg.l .gstep) s = .next u ∧
      u.chipout = s.chipout ++ rowChips s.cfg k.toNat := by
  obtain ⟨p, hp⟩ := tapPair?_of_lt hc hk
  refine ⟨(s.bindGen k).generate p s.cfg.l, ?_, congrArg (s.chipout ++ ·) (run_bindGen hp)⟩
  rw [execList, exec_ginit_of_lt hf hk]
  exact execList_replicate_gstep (s := s.bindGen k) hf rfl hp _

/-! ## REF (R130) -/

/-- The first ten chips under REF with the tap pair `p`: enough to tell its rows apart. -/
def firstChips (p : TapPair) : List Bool := (Gen.run Cfg.ref p 10 (Gen.start false)).2

theorem nodup_firstChips : (Cfg.refTaps.map firstChips).Nodup := by decide

theorem take_rowChips_ref {id : Nat} (h : id < Cfg.refTaps.length) :
    (rowChips Cfg.ref id).take 10 = firstChips Cfg.refTaps[id] := by
  have hrow : rowChips Cfg.ref id = (Gen.run Cfg.ref Cfg.refTaps[id] (10 + 1013) (Gen.start false)).2 := by
    rw [rowChips, show Cfg.ref.taps[id]? = some Cfg.refTaps[id] from List.getElem?_eq_getElem h]
    rfl
  rw [hrow, Gen.run_add]
  exact List.take_left' (Gen.length_run _ _)

theorem rowChips_ref_ne {a b : Nat} (ha : a < Cfg.refTaps.length) (hb : b < Cfg.refTaps.length) (hab : a ≠ b) :
    rowChips Cfg.ref a ≠ rowChips Cfg.ref b := by
  intro heq
  have hfirst : firstChips Cfg.refTaps[a] = firstChips Cfg.refTaps[b] := by
    rw [← take_rowChips_ref ha, ← take_rowChips_ref hb, heq]
  refine hab ((nodup_firstChips.getElem_inj_iff (hi := by simpa using ha) (hj := by simpa using hb)).1 ?_)
  simpa using hfirst

/-- Two lists of one length that differ do so at some position. -/
theorem exists_getElem?_ne {α : Type} {n : Nat} {xs ys : List α} (hx : xs.length = n) (hy : ys.length = n)
    (h : xs ≠ ys) : ∃ j < n, ∃ x y, xs[j]? = some x ∧ ys[j]? = some y ∧ x ≠ y := by
  by_contra hno
  push Not at hno
  refine h (List.ext_getElem (hx.trans hy.symm) fun j h1 h2 => ?_)
  exact hno j (hx ▸ h1) _ _ (List.getElem?_eq_getElem h1) (List.getElem?_eq_getElem h2)

/-- Settles O26: GMAT stores `rowChips`, and the first ten chips of any two rows of REF differ. -/
theorem refRowsAreDistinct : Obligations.RefRowsAreDistinct := by
  intro s a b hcfg hf ha hb hab
  have href : s.cfg.OK := by rw [hcfg]; constructor <;> decide
  have hne : a.toNat ≠ b.toNat := fun h => hab (BitVec.eq_of_toNat_eq h)
  have ha' : a.toNat < s.cfg.n := by rw [hcfg]; exact ha
  have hb' : b.toNat < s.cfg.n := by rw [hcfg]; exact hb
  obtain ⟨g, hga⟩ := exists_exec_gmat href hf ha'
  obtain ⟨g', hgb⟩ := exists_exec_gmat
    (s := ((s.bindGen a).setGen g).storeRow a (rowChips s.cfg a.toNat)) href hf hb'
  obtain ⟨j, hj, x, y, hx, hy, hxy⟩ := exists_getElem?_ne (length_rowChips href ha') (length_rowChips href hb')
    (by rw [hcfg]; exact rowChips_ref_ne ha hb hne)
  have hrun := execList_append_of_next (js := [.gmat b]) ((execList_singleton (.gmat a) s).trans hga)
  rw [execList_singleton, hgb] at hrun
  refine ⟨_, hrun, j, by rwa [hcfg] at hj, x, y, ?_, ?_, hxy⟩
  · rw [codeAt?_storeRow_other _ _ _ _ hne]
    exact (codeAt?_storeRow_same _ a _ j).trans hx
  · exact (codeAt?_storeRow_same _ b _ j).trans hy

/-! ## GMATALL -/

/-- `t` is `s` with the rows of the first `m` identities materialised. -/
structure Materialised (s : State) (m : Nat) (t : State) : Prop where
  frame : t = { s with
    ra := t.ra, rb := t.rb, chip := t.chip, id := t.id, gvalid := t.gvalid, code := t.code, cvalid := t.cvalid }
  gvalid : 0 < m → t.gvalid = true
  row : ∀ id < m, t.cvalid.getLsbD id = true ∧ t.code.read id = some (rowChips s.cfg id)

theorem Materialised.cfg_eq (h : Materialised s m t) : t.cfg = s.cfg := by rw [h.frame]

theorem Materialised.fault_eq (h : Materialised s m t) : t.fault = s.fault := by rw [h.frame]

/-- One more GMAT materialises one more row and leaves the others. -/
theorem Materialised.succ (h : Materialised s m t) (hm : m < 256) (g : Gen) :
    Materialised s (m + 1)
      (((t.bindGen (BitVec.ofNat 8 m)).setGen g).storeRow (BitVec.ofNat 8 m) (rowChips s.cfg m)) where
  frame := by rw [h.frame]; rfl
  gvalid _ := rfl
  row id hid := by
    rw [storeRow_cvalid, storeRow_code, getLsbD_setValid _ _ _ (by omega), Memory.read_write, toNat_ofNat8 hm]
    by_cases heq : id = m
    · simp [heq]
    · simpa [heq] using h.row id (by omega)

theorem exists_execList_gmats (h : s.Inv) (hf : s.fault = false) (hm : m ≤ s.cfg.n) :
    ∃ t, execList ((List.range m).map fun id => .gmat (BitVec.ofNat 8 id)) s = .next t ∧ Materialised s m t := by
  induction m with
  | zero => exact ⟨s, rfl, rfl, fun h0 => absurd h0 (Nat.lt_irrefl 0), fun _ h0 => absurd h0 (Nat.not_lt_zero _)⟩
  | succ m ih =>
    obtain ⟨t, e, ht⟩ := ih (Nat.le_of_succ_le hm)
    have hn := h.cfg_ok.n_le
    have hmod : (BitVec.ofNat 8 m).toNat = m := toNat_ofNat8 (by omega)
    obtain ⟨g, hg⟩ := exists_exec_gmat (k := BitVec.ofNat 8 m) (inv_of_execList h e).cfg_ok (ht.fault_eq.trans hf)
      (by rw [hmod, ht.cfg_eq]; omega)
    rw [hmod, ht.cfg_eq] at hg
    exact ⟨_, (execList_range_succ e).trans hg, ht.succ (by omega) g⟩

/-- Settles O25: GMATALL materialises the row of every identity, which has `L` chips. -/
theorem gmatallMaterialisesEveryRow : Obligations.GmatallMaterialisesEveryRow := by
  intro s h hf
  obtain ⟨t, e, ht⟩ := exists_execList_gmats h hf le_rfl
  refine ⟨t, e, ht.fault_eq.trans hf, fun id hid => ⟨(ht.row id hid).1, fun j hj => ?_⟩, ?_⟩
  · rw [State.codeAt?, (ht.row id hid).2]
    simpa [length_rowChips h.cfg_ok hid] using hj
  · rw [← ht.gvalid h.cfg_ok.n_pos]
    exact ht.frame

/-! ## SLOAD -/

/-- `s` with the buffer holding `xs` and nothing else, not rotated. -/
def State.holding (s : State) (xs : List Sample) : State :=
  { s with samp := Memory.ofList xs, slen := BitVec.ofNat 11 xs.length, phase := 0 }

theorem toNat_slen_holding (hc : s.cfg.OK) {xs : List Sample} (hl : xs.length ≤ s.cfg.l) :
    (s.holding xs).slen.toNat = xs.length := by
  have hle := hc.l_le
  exact Nat.mod_eq_of_lt (by omega)

theorem sampAt?_holding (s : State) (xs : List Sample) (j : Nat) : (s.holding xs).sampAt? j = xs[j]? :=
  Memory.read_ofList xs j

/-- Writing behind the last element of a space made of a list appends to the list. -/
theorem write_ofListFrom {α : Type} (i : Nat) (xs : List α) (x : α) :
    (Memory.ofListFrom i xs).write (i + xs.length) x = Memory.ofListFrom i (xs ++ [x]) := by
  induction xs generalizing i with
  | nil => rfl
  | cons y ys ih =>
    have hlt : i < i + (y :: ys).length := by simp
    rw [Memory.ofListFrom, Memory.write, if_pos hlt, List.length_cons, Nat.add_comm ys.length, ← Nat.add_assoc, ih]
    rfl

theorem pushSample_holding (hc : s.cfg.OK) {xs : List Sample} (hl : xs.length < s.cfg.l) (v : Sample) :
    (s.holding xs).pushSample v = s.holding (xs ++ [v]) := by
  have hsamp : (Memory.ofList xs).write xs.length v = Memory.ofList (xs ++ [v]) := by
    simpa [Memory.ofList] using write_ofListFrom 0 xs v
  have hslen : BitVec.ofNat 11 xs.length + 1 = BitVec.ofNat 11 (xs ++ [v]).length := by
    rw [List.length_append, BitVec.ofNat_add]
    rfl
  rw [State.pushSample, toNat_slen_holding hc hl.le]
  simp only [State.holding, hsamp, hslen]

theorem execList_spushes (hc : s.cfg.OK) (hf : s.fault = false) (vs xs : List Sample)
    (hl : xs.length + vs.length ≤ s.cfg.l) :
    execList (vs.map .spush) (s.holding xs) = .next (s.holding (xs ++ vs)) := by
  induction vs generalizing xs with
  | nil => rw [List.append_nil]; rfl
  | cons v vs ih =>
    rw [List.length_cons] at hl
    have hroom : (s.holding xs).slen.toNat < s.cfg.l := by rw [toNat_slen_holding hc (by omega)]; omega
    have hpush : exec (.spush v) (s.holding xs) = .next (s.holding (xs ++ [v])) := by
      rw [← pushSample_holding hc (by omega)]
      exact exec_spush_of_lt (s := s.holding xs) hf hroom v
    rw [List.map_cons, execList, hpush, List.append_cons xs v vs]
    exact ih (xs ++ [v]) (by rw [List.length_append, List.length_singleton]; omega)

theorem execList_sload (hc : s.cfg.OK) (hf : s.fault = false) {vs : List Sample} (hl : vs.length ≤ s.cfg.l) :
    execList (sload vs) s = .next (s.holding vs) := by
  rw [sload, execList, exec_sclr_of_clear hf]
  exact execList_spushes hc hf vs [] (by simpa using hl)

/-- Settles O31: SLOAD answers `State.holding`, whose buffer is full. -/
theorem sloadPlacesInputInOrder : Obligations.SloadPlacesInputInOrder := by
  intro s vs hc hf hlen
  have hslen : (s.holding vs).slen.toNat = s.cfg.l := (toNat_slen_holding hc hlen.le).trans hlen
  exact ⟨s.holding vs, execList_sload hc hf hlen.le, rfl, hslen, sampAt?_holding s vs,
    spush_faults (s := s.holding vs) hf hslen.ge⟩

/-! ## SCANALL -/

/-- The result words of a DECODE of each of the first `m` identities. -/
def State.batchWords (s : State) (m : Nat) : List Word :=
  (List.range m).flatMap fun id => s.phaseWords (BitVec.ofNat 8 id) s.cfg.l

theorem batchWords_succ (s : State) (m : Nat) :
    s.batchWords (m + 1) = s.batchWords m ++ s.phaseWords (BitVec.ofNat 8 m) s.cfg.l := by
  simp [State.batchWords, List.range_succ, List.flatMap_append]

theorem exists_execList_decodes (h : ∀ id < m, ReadyFor s (BitVec.ofNat 8 id)) :
    ∃ t, execList ((List.range m).map fun id => .decode (BitVec.ofNat 8 id)) s = .next t ∧
      t = { s with acc := t.acc, score := t.score, cls := t.cls, resout := s.resout ++ s.batchWords m } := by
  induction m with
  | zero => exact ⟨s, rfl, by simp [State.batchWords]⟩
  | succ m ih =>
    obtain ⟨t, e, ht⟩ := ih fun id hid => h id (Nat.lt_succ_of_lt hid)
    obtain ⟨hinv, hready⟩ := h m (Nat.lt_succ_self m)
    have hready' : ReadyFor t (BitVec.ofNat 8 m) := ⟨inv_of_execList hinv e, by rw [ht]; exact hready⟩
    refine ⟨_, (execList_range_succ e).trans (exec_decode_of_ready hready'), ?_⟩
    rw [batchWords_succ, ← List.append_assoc, ht]
    rfl

/-! ## RUN -/

theorem phaseWords_of_phase_zero (hp : s.phase = 0) (k : BitVec 8) : s.phaseWords k s.cfg.l =
    (List.range s.cfg.l).filterMap fun p => reportOf s.cfg k p (sumAt s k p) := by
  refine List.filterMap_congr fun p hmem => ?_
  rw [hp, show (0 : BitVec 10).toNat = 0 from rfl, Nat.zero_add, Nat.mod_eq_of_lt (List.mem_range.1 hmem)]

theorem batchWords_of_phase_zero (hp : s.phase = 0) (m : Nat) : s.batchWords m =
    (List.range m).flatMap fun id => (List.range s.cfg.l).filterMap fun p =>
      reportOf s.cfg (BitVec.ofNat 8 id) p (sumAt s (BitVec.ofNat 8 id) p) :=
  List.flatMap_congr fun id _ => phaseWords_of_phase_zero hp (BitVec.ofNat 8 id)

/-- With every row materialised and the buffer loaded, every identity is ready. -/
theorem readyFor_of_loaded {vs : List Sample} (h : s.Inv) (hf : s.fault = false) (ht : Materialised s s.cfg.n t)
    (hlen : vs.length = s.cfg.l) (hu : (t.holding vs).Inv) {id : Nat} (hid : id < s.cfg.n) :
    ReadyFor (t.holding vs) (BitVec.ofNat 8 id) := by
  have hn := h.cfg_ok.n_le
  have hcfg := ht.cfg_eq
  have hmod : (BitVec.ofNat 8 id).toNat = id := toNat_ofNat8 (by omega)
  have hslen : (t.holding vs).slen.toNat = t.cfg.l := by
    rw [toNat_slen_holding (s := t) hu.cfg_ok (hcfg ▸ hlen.le), hcfg, hlen]
  exact ⟨hu, ht.fault_eq.trans hf, by rw [hmod]; exact hcfg ▸ hid, hslen, by rw [hmod]; exact (ht.row id hid).1⟩

/-- RUN answers the loaded state with the correlator's registers of the last phase and every batch word appended. -/
theorem exists_execList_runBatch {vs : List Sample} (h : s.Inv) (hf : s.fault = false) (hlen : vs.length = s.cfg.l) :
    ∃ t u, execList (runBatch s.cfg vs) s = .next u ∧ Materialised s s.cfg.n t ∧
      u = { t.holding vs with
        acc := u.acc, score := u.score, cls := u.cls
        resout := t.resout ++ (t.holding vs).batchWords s.cfg.n } := by
  obtain ⟨t, hrows, ht⟩ := exists_execList_gmats h hf le_rfl
  have hload : execList (sload vs) t = .next (t.holding vs) :=
    execList_sload (ht.cfg_eq ▸ h.cfg_ok) (ht.fault_eq.trans hf) (ht.cfg_eq ▸ hlen.le)
  have hinv : (t.holding vs).Inv := inv_of_execList (inv_of_execList h hrows) hload
  obtain ⟨u, hscan, hu⟩ := exists_execList_decodes fun _ => readyFor_of_loaded h hf ht hlen hinv
  refine ⟨t, u, ?_, ht, hu⟩
  rw [runBatch, List.append_assoc, gmatall, execList_append_of_next hrows, execList_append_of_next hload]
  exact hscan

/-- Settles O40: GMATALL materialises the rows, SLOAD fills the buffer, and SCANALL reports identity by identity. -/
theorem batchRunReportsEveryDeterminedPhase : Obligations.BatchRunReportsEveryDeterminedPhase := by
  intro s vs h hf hlen
  obtain ⟨t, u, hrun, ht, hu⟩ := exists_execList_runBatch h hf hlen
  refine ⟨u, hrun, ?fault, ?phase, ?chipout, ?rdout, fun j => ?buffer, fun id hid => ?row, ?words⟩
  case fault => rw [hu]; exact ht.fault_eq.trans hf
  case phase => rw [hu]; rfl
  case chipout => rw [hu]; change t.chipout = s.chipout; rw [ht.frame]
  case rdout => rw [hu]; change t.rdout = s.rdout; rw [ht.frame]
  case buffer => rw [hu]; exact sampAt?_holding t vs j
  case row =>
    have hmod : (BitVec.ofNat 8 id).toNat = id := toNat_ofNat8 (by have := h.cfg_ok.n_le; omega)
    obtain ⟨v, hv, hchips⟩ := exists_ginit_gsteps (k := BitVec.ofNat 8 id) h.cfg_ok hf (by rwa [hmod])
    refine ⟨v, _, hv, hchips, fun j => ?_⟩
    have hcode : u.code = t.code := by rw [hu]; rfl
    rw [hmod, State.codeAt?, hcode, (ht.row id hid).2]
    rfl
  case words =>
    have hcfg : (t.holding vs).cfg = s.cfg := ht.cfg_eq
    have hold : t.resout = s.resout := by rw [ht.frame]
    have hwords : u.resout = t.resout ++ (t.holding vs).batchWords s.cfg.n := by rw [hu]
    have hsum : ∀ k p, sumAt u k p = sumAt (t.holding vs) k p := fun k p => by rw [hu]; rfl
    simp only [hwords, hold, batchWords_of_phase_zero (s := t.holding vs) rfl, hcfg, hsum]

end Sys2Proof.Machine
end
